-- ==== Sys2Proof/Word.lean ====
section
/-! DEFINITION. The widths of the machine: a word, the one size of registers, cells, addresses and instructions
(spec/00_scope.md R7), and a byte, the size of a character (spec/45_trap.md R168). -/

namespace Sys2Proof

/-- A register value, a memory cell, an address or an instruction: 16 bits, arithmetic modulo 2^16 (R7). -/
abbrev Word := BitVec 16

/-- A character of the input source or of the output sink: 8 bits, uninterpreted (R168, log 26). -/
abbrev Byte := BitVec 8

end Sys2Proof
end

