-- ==== Sys2Proof/Syntax.lean ====
section
/-! DEFINITION. The instructions, one constructor per row of spec/opcode_table.json, with their operands as the decoder
leaves them: register names, and immediate and offset fields still unextended (spec/30_encoding.md R83, R84). -/

namespace Sys2Proof

/-- The eight general registers (spec/10_state.md R20). -/
inductive Reg where
  | r0 | r1 | r2 | r3 | r4 | r5 | r6 | r7
  deriving DecidableEq, Repr

/-- The sixteen mnemonics that a 4-bit opcode selects among (spec/30_encoding.md R81). -/
inductive Opcode where
  | br | add | ld | st | jsr | and | ldr | str | rti | not | ldi | sti | jmp | res | lea | trap
  deriving DecidableEq, Repr

/-- The instructions. The six services are rows of their own in the table (specialisations of TRAP), so they are
constructors of their own; `trap` is the row TRAP, well formed with the vectors that no service has (log 19). -/
inductive Instr where
  /-- BR: the mask n, z, p as bits 2, 1, 0, and PCoffset9 (spec/40_branch.md R110). -/
  | br (nzp : BitVec 3) (off : BitVec 9)
  /-- ADD, register mode (spec/41_alu.md R121). -/
  | addReg (dr sr1 sr2 : Reg)
  /-- ADD, immediate mode (R122). -/
  | addImm (dr sr1 : Reg) (imm : BitVec 5)
  /-- LD (spec/42_load.md R131). -/
  | ld (dr : Reg) (off : BitVec 9)
  /-- ST (spec/43_store.md R141). -/
  | st (sr : Reg) (off : BitVec 9)
  /-- JSR, register mode (spec/44_jump.md R152). -/
  | jsrr (base : Reg)
  /-- JSR, PC-relative mode (R151). -/
  | jsr (off : BitVec 11)
  /-- AND, register mode (R123). -/
  | andReg (dr sr1 sr2 : Reg)
  /-- AND, immediate mode (R124). -/
  | andImm (dr sr1 : Reg) (imm : BitVec 5)
  /-- LDR (R134). -/
  | ldr (dr base : Reg) (off : BitVec 6)
  /-- STR (R143). -/
  | str (sr base : Reg) (off : BitVec 6)
  /-- RTI, reserved (spec/46_reserved.md R180). -/
  | rti
  /-- NOT (R126). -/
  | not (dr sr : Reg)
  /-- LDI (R132). -/
  | ldi (dr : Reg) (off : BitVec 9)
  /-- STI (R142). -/
  | sti (sr : Reg) (off : BitVec 9)
  /-- JMP (R150). -/
  | jmp (base : Reg)
  /-- RES, reserved (R181). -/
  | res
  /-- LEA (R133). -/
  | lea (dr : Reg) (off : BitVec 9)
  /-- TRAP with its vector (spec/45_trap.md R160). -/
  | trap (vect : BitVec 8)
  /-- TRAP x20 (R164). -/
  | getc
  /-- TRAP x21 (R165). -/
  | out
  /-- TRAP x22 (R166). -/
  | puts
  /-- TRAP x23, the service IN (R167). -/
  | inp
  /-- TRAP x24 (R169). -/
  | putsp
  /-- TRAP x25 (R170). -/
  | halt
  deriving DecidableEq, Repr

/-- The mnemonic whose opcode an instruction's word carries in bits [15:12]. -/
def Instr.opcode : Instr → Opcode
  | .br _ _ => .br
  | .addReg _ _ _ => .add
  | .addImm _ _ _ => .add
  | .ld _ _ => .ld
  | .st _ _ => .st
  | .jsrr _ => .jsr
  | .jsr _ => .jsr
  | .andReg _ _ _ => .and
  | .andImm _ _ _ => .and
  | .ldr _ _ _ => .ldr
  | .str _ _ _ => .str
  | .rti => .rti
  | .not _ _ => .not
  | .ldi _ _ => .ldi
  | .sti _ _ => .sti
  | .jmp _ => .jmp
  | .res => .res
  | .lea _ _ => .lea
  | .trap _ => .trap
  | .getc => .trap
  | .out => .trap
  | .puts => .trap
  | .inp => .trap
  | .putsp => .trap
  | .halt => .trap

/-- RET is JMP R7 (spec/30_encoding.md R92, 44_jump.md R150). -/
abbrev Instr.ret : Instr := .jmp .r7

/-- NOP is BR #0 with mask 000 (R92). -/
abbrev Instr.nop : Instr := .br 0#3 0#9

end Sys2Proof
end

