-- ==== Sys2Proof/WellFormed.lean ====
section
/-! DEFINITION. Which terms of `Instr` are the reading of a word. Every operand field is a register name or a bit vector of
its field's width, so the one check is that TRAP does not carry a vector that has a row of its own in
spec/opcode_table.json (spec/45_trap.md R160; log 19). -/

namespace Sys2Proof

/-- The six vectors that select a service (R160). -/
def serviceVectors : List (BitVec 8) := [0x20#8, 0x21#8, 0x22#8, 0x23#8, 0x24#8, 0x25#8]

/-- Well formed: the instruction is its own word's reading. -/
def Instr.wf : Instr → Bool
  | .trap v => !serviceVectors.contains v
  | _ => true

end Sys2Proof
end

