-- ==== Sys2Proof/Decode.lean ====
section
/-! DEFINITION. The decoder (spec/30_encoding.md R80 to R90), a pure and total function of one word, and after it the
encoder, the canonical words of R91. No word is rejected: "Decoding never faults" (R86); the reserved opcodes decode to
their instructions and fault when executed. -/

namespace Sys2Proof

/-- OPCODE_MAP, the mnemonic of each 4-bit opcode (R81). One table, on which every hexadecimal word depends: the LC-3
assignment of decision D1. UNVERIFIED: the spec's choice, which no source supports (log 1). Unsafe. -/
def opcodeMap (op : BitVec 4) : Opcode :=
  match op.toNat with
  | 0x0 => .br
  | 0x1 => .add
  | 0x2 => .ld
  | 0x3 => .st
  | 0x4 => .jsr
  | 0x5 => .and
  | 0x6 => .ldr
  | 0x7 => .str
  | 0x8 => .rti
  | 0x9 => .not
  | 0xA => .ldi
  | 0xB => .sti
  | 0xC => .jmp
  | 0xD => .res
  | 0xE => .lea
  | _ => .trap

/-- The 4-bit value of each mnemonic: the table of R81 read the other way. -/
def opcodeValue : Opcode → BitVec 4
  | .br => 0x0#4
  | .add => 0x1#4
  | .ld => 0x2#4
  | .st => 0x3#4
  | .jsr => 0x4#4
  | .and => 0x5#4
  | .ldr => 0x6#4
  | .str => 0x7#4
  | .rti => 0x8#4
  | .not => 0x9#4
  | .ldi => 0xA#4
  | .sti => 0xB#4
  | .jmp => 0xC#4
  | .res => 0xD#4
  | .lea => 0xE#4
  | .trap => 0xF#4

/-- A register field names R0 to R7 by its unsigned value (R83). -/
def regOfBits (b : BitVec 3) : Reg :=
  match b.toNat with
  | 0 => .r0
  | 1 => .r1
  | 2 => .r2
  | 3 => .r3
  | 4 => .r4
  | 5 => .r5
  | 6 => .r6
  | _ => .r7

/-- The register field that names a register (R83). -/
def regBits : Reg → BitVec 3
  | .r0 => 0#3
  | .r1 => 1#3
  | .r2 => 2#3
  | .r3 => 3#3
  | .r4 => 4#3
  | .r5 => 5#3
  | .r6 => 6#3
  | .r7 => 7#3

/-- Every field of a word, "regardless of whether the opcode uses them" (R86). -/
structure DecodedFields where
  opcode     : BitVec 4
  /-- DR; also SR of ST, STI and STR, and BR's mask. -/
  dr         : BitVec 3
  /-- SR1; also SR of NOT and BaseR. -/
  sr1        : BitVec 3
  sr2        : BitVec 3
  immFlag    : BitVec 1
  imm5       : BitVec 5
  offset6    : BitVec 6
  pcoffset9  : BitVec 9
  pcoffset11 : BitVec 11
  longFlag   : BitVec 1
  trapvect8  : BitVec 8
  deriving DecidableEq, Repr

/-- The fields of R86, each at its bits. -/
def decodeFields (ir : Word) : DecodedFields where
  opcode     := ir.extractLsb' 12 4
  dr         := ir.extractLsb' 9 3
  sr1        := ir.extractLsb' 6 3
  sr2        := ir.extractLsb' 0 3
  immFlag    := ir.extractLsb' 5 1
  imm5       := ir.extractLsb' 0 5
  offset6    := ir.extractLsb' 0 6
  pcoffset9  := ir.extractLsb' 0 9
  pcoffset11 := ir.extractLsb' 0 11
  longFlag   := ir.extractLsb' 11 1
  trapvect8  := ir.extractLsb' 0 8

/-- The row of the table that a trap vector selects: "a service code compared for equality" (spec/45_trap.md R160). -/
def trapInstr (v : BitVec 8) : Instr :=
  match v.toNat with
  | 0x20 => .getc
  | 0x21 => .out
  | 0x22 => .puts
  | 0x23 => .inp
  | 0x24 => .putsp
  | 0x25 => .halt
  | _ => .trap v

/-- The instruction selected: "the row of rule R81 for `ir[15:12]`, refined by `ir[5]` for ADD and AND and by `ir[11]` for
JSR" (R86), each with the fields R82 gives it; bits that its format calls unused are not examined (R88, log 18). -/
def selectInstr (f : DecodedFields) : Instr :=
  match opcodeMap f.opcode with
  | .br => .br f.dr f.pcoffset9
  | .add =>
    if f.immFlag = 1#1 then .addImm (regOfBits f.dr) (regOfBits f.sr1) f.imm5
    else .addReg (regOfBits f.dr) (regOfBits f.sr1) (regOfBits f.sr2)
  | .ld => .ld (regOfBits f.dr) f.pcoffset9
  | .st => .st (regOfBits f.dr) f.pcoffset9
  | .jsr => if f.longFlag = 1#1 then .jsr f.pcoffset11 else .jsrr (regOfBits f.sr1)
  | .and =>
    if f.immFlag = 1#1 then .andImm (regOfBits f.dr) (regOfBits f.sr1) f.imm5
    else .andReg (regOfBits f.dr) (regOfBits f.sr1) (regOfBits f.sr2)
  | .ldr => .ldr (regOfBits f.dr) (regOfBits f.sr1) f.offset6
  | .str => .str (regOfBits f.dr) (regOfBits f.sr1) f.offset6
  | .rti => .rti
  | .not => .not (regOfBits f.dr) (regOfBits f.sr1)
  | .ldi => .ldi (regOfBits f.dr) f.pcoffset9
  | .sti => .sti (regOfBits f.dr) f.pcoffset9
  | .jmp => .jmp (regOfBits f.sr1)
  | .res => .res
  | .lea => .lea (regOfBits f.dr) f.pcoffset9
  | .trap => trapInstr f.trapvect8

/-- The decoder: every one of the 65536 words decodes (R86). -/
def decode (ir : Word) : Instr := selectInstr (decodeFields ir)

/-- The host's reading of a row of spec/opcode_table.json: an instruction is one word (R80), so `w` is that word, the bits
from `nbits` up being 0; a row of more than 16 bits is no instruction of this machine. -/
def decodeTableWord (nbits w : Nat) : Option Instr :=
  if nbits ≤ 16 then some (decode (BitVec.ofNat 16 (w % 2 ^ nbits))) else none

/-- A word from an opcode and its 12 operand bits (R82). -/
def wordOf (op : Opcode) (operands : BitVec 12) : Word := opcodeValue op ++ operands

/-- The canonical word of an instruction (R91): 0 in every unused bit, except that NOT has 111111 in `[5:0]` (R88). -/
def encode : Instr → Word
  | .br nzp off => wordOf .br (nzp ++ off)
  | .addReg dr sr1 sr2 => wordOf .add (regBits dr ++ regBits sr1 ++ 0#3 ++ regBits sr2)
  | .addImm dr sr1 imm => wordOf .add (regBits dr ++ regBits sr1 ++ 1#1 ++ imm)
  | .ld dr off => wordOf .ld (regBits dr ++ off)
  | .st sr off => wordOf .st (regBits sr ++ off)
  | .jsrr base => wordOf .jsr (0#1 ++ 0#2 ++ regBits base ++ 0#6)
  | .jsr off => wordOf .jsr (1#1 ++ off)
  | .andReg dr sr1 sr2 => wordOf .and (regBits dr ++ regBits sr1 ++ 0#3 ++ regBits sr2)
  | .andImm dr sr1 imm => wordOf .and (regBits dr ++ regBits sr1 ++ 1#1 ++ imm)
  | .ldr dr base off => wordOf .ldr (regBits dr ++ regBits base ++ off)
  | .str sr base off => wordOf .str (regBits sr ++ regBits base ++ off)
  | .rti => wordOf .rti 0#12
  | .not dr sr => wordOf .not (regBits dr ++ regBits sr ++ 0x3F#6)
  | .ldi dr off => wordOf .ldi (regBits dr ++ off)
  | .sti sr off => wordOf .sti (regBits sr ++ off)
  | .jmp base => wordOf .jmp (0#3 ++ regBits base ++ 0#6)
  | .res => wordOf .res 0#12
  | .lea dr off => wordOf .lea (regBits dr ++ off)
  | .trap v => wordOf .trap (0#4 ++ v)
  | .getc => wordOf .trap 0x020#12
  | .out => wordOf .trap 0x021#12
  | .puts => wordOf .trap 0x022#12
  | .inp => wordOf .trap 0x023#12
  | .putsp => wordOf .trap 0x024#12
  | .halt => wordOf .trap 0x025#12

end Sys2Proof
end

