-- ==== Sys2Proof/Machine/State.lean ====
section
/-! DEFINITION. The state of the machine as plain data: everything spec/10_state.md and 20_memory.md give it, and two
fields by which the model holds what happens inside an open step (`waiting`, log 8; `arrivals`, log 7). -/

namespace Sys2Proof.Machine

open Sys2Proof

/-- Why a run is Faulted: the one reason, with its record (spec/10_state.md R29, spec/60_exceptions.md R194). -/
inductive FaultReason where
  /-- The address of the faulting instruction and the opcode `ir[15:12]` of it. -/
  | illegalOpcode (pc : Word) (opcode : BitVec 4)
  deriving DecidableEq, Repr

/-- The engine state (R27). Halted and Faulted are terminal. -/
inductive Engine where
  | ready
  | running
  | halted
  | faulted (reason : FaultReason)
  deriving DecidableEq, Repr

/-- A trap service that waits for a character inside its open step (spec/45_trap.md R163, R172: "GETC and IN are the only
suspension points"). -/
inductive Waiting where
  | getc
  | inp
  deriving DecidableEq, Repr

/-- The eight general registers (R20). -/
structure Regs where
  r0 : Word
  r1 : Word
  r2 : Word
  r3 : Word
  r4 : Word
  r5 : Word
  r6 : Word
  r7 : Word
  deriving DecidableEq, Repr

/-- One word of memory at an address: the machine has no smaller unit (R57, log 10). -/
abbrev Cell := Nat × Word

/-- The state of the machine. -/
structure State where
  /-- R0 to R7 (R20). -/
  regs : Regs
  /-- The program counter: between steps the next instruction's address, inside a step the post-increment value (R21). -/
  pc : Word
  /-- COND: bit 2 NEGATIVE, bit 1 ZERO, bit 0 POSITIVE (R23). -/
  cond : BitVec 3
  /-- The engine state, with the fault record in Faulted (R27, R29). -/
  engine : Engine
  /-- The 65536 cells (R50): a list sorted by address, without repeats and without a cell that holds what an unlisted cell
  reads as; `Memory.wf` in Machine/Ops.lean says so. -/
  mem : List Cell
  /-- The input source: characters arrived and not consumed, first in first out (R32). -/
  kbq : List Byte
  /-- The most recently probed or consumed character (R32). -/
  kbChar : Byte
  /-- The output sink, oldest byte first, append-only (R33). -/
  out : List Byte
  /-- The service whose step is still open because no character has come, if there is one (log 8). -/
  waiting : Option Waiting
  /-- THE MODEL'S OWN, not the spec's: the characters the environment appends to `kbq` at the coming moments at which the
  machine looks at it, one list a moment (spec/20_memory.md R70; log 7). No statement may rest on its value. -/
  arrivals : List (List Byte)
  deriving DecidableEq, Repr

/-- Where the machine stops without a next state. The CORE's own fault, IllegalOpcode, is none of these: it is a next
state whose engine is Faulted (log 24). -/
inductive Fault where
  /-- Raised by PUTS and PUTSP (and by TRAP with their vectors) if the string still has no terminator after as many words
  as any finite list of arrivals lets it have: "the service never ends" (spec/45_trap.md R166, U14 `stuck`). Safe: the
  hardware has no next state there. Laws/Strings.lean proves that no state reaches it (log 9). -/
  | endlessString
  deriving DecidableEq, Repr

/-- Where the model gives no meaning. -/
inductive Refusal where
  /-- An instruction without a meaning yet, raised by a refused arm of Machine/Dispatch.lean only; no arm does so now.
  Safe. -/
  | notModelled (mnemonic : String)
  deriving DecidableEq, Repr

/-- Every register 0 (R20, R37). -/
def Regs.zero : Regs := ⟨0#16, 0#16, 0#16, 0#16, 0#16, 0#16, 0#16, 0#16⟩

/-- The state after reset, the table of R37: all zero, COND without a flag, Ready, streams empty. `waiting` is none, no step
being open, and `arrivals` is empty (DESIGN CHOICE, log 7). -/
def State.reset : State where
  regs := Regs.zero
  pc := 0#16
  cond := 0b000#3
  engine := .ready
  mem := []
  kbq := []
  kbChar := 0x00#8
  out := []
  waiting := none
  arrivals := []

end Sys2Proof.Machine
end

