-- ==== Sys2Proof/Machine/Ops.lean ====
section
/-! DEFINITION. The named operations on the state: registers, memory cells, the two memory transactions with the keyboard
behind them (spec/20_memory.md), the character streams, fetching an instruction, and taking the machine's one fault
(spec/60_exceptions.md R190). The spec has no return from it (R199). -/

namespace Sys2Proof.Machine

open Sys2Proof

/-! ## General registers (spec/10_state.md R20, R38) -/

/-- `x[r]`: the 16 bits last written. -/
def State.reg (s : State) : Reg → Word
  | .r0 => s.regs.r0
  | .r1 => s.regs.r1
  | .r2 => s.regs.r2
  | .r3 => s.regs.r3
  | .r4 => s.regs.r4
  | .r5 => s.regs.r5
  | .r6 => s.regs.r6
  | .r7 => s.regs.r7

/-- The register file with one register replaced whole. -/
def Regs.set (g : Regs) (r : Reg) (v : Word) : Regs :=
  match r with
  | .r0 => { g with r0 := v }
  | .r1 => { g with r1 := v }
  | .r2 => { g with r2 := v }
  | .r3 => { g with r3 := v }
  | .r4 => { g with r4 := v }
  | .r5 => { g with r5 := v }
  | .r6 => { g with r6 := v }
  | .r7 => { g with r7 := v }

/-- `x[r] <- v`. -/
def State.setReg (s : State) (r : Reg) (v : Word) : State := { s with regs := s.regs.set r v }

/-- `pc <- target`. -/
def State.setPc (s : State) (target : Word) : State := { s with pc := target }

/-- `state <- e` (R27). -/
def State.setEngine (s : State) (e : Engine) : State := { s with engine := e }

/-- Halted and Faulted: no transition leaves them except reset (R27). -/
def Engine.isTerminal : Engine → Bool
  | .ready => false
  | .running => false
  | .halted => true
  | .faulted _ => true

/-! ## The memory array (spec/20_memory.md R50) -/

/-- What a cell that is not listed holds: "Every cell is 0x0000 after reset" (R50, R37). -/
def unlisted : Word := 0x0000#16

/-- The cell at an address. -/
def readCells : List Cell → Nat → Word
  | [], _ => unlisted
  | (k, w) :: rest, a => if k = a then w else readCells rest a

/-- The cells with one of them replaced, in canonical form again. -/
def writeCells : List Cell → Nat → Word → List Cell
  | [], a, v => if v = unlisted then [] else [(a, v)]
  | (k, w) :: rest, a, v =>
    if a < k then (if v = unlisted then (k, w) :: rest else (a, v) :: (k, w) :: rest)
    else if a = k then (if v = unlisted then rest else (a, v) :: rest)
    else (k, w) :: writeCells rest a v

/-- Addresses at least `lo`, strictly rising, within the 65536 cells, and no cell that holds `unlisted`. -/
def wfCellsFrom : Nat → List Cell → Bool
  | _, [] => true
  | lo, (k, w) :: rest => decide (lo ≤ k) && decide (k < 65536) && decide (w ≠ unlisted) && wfCellsFrom (k + 1) rest

/-- The canonical form of memory. -/
def Memory.wf (m : List Cell) : Bool := wfCellsFrom 0 m

/-- `mem[a]`, raw: what inspection sees (R41, R208). -/
def State.cell (s : State) (a : Word) : Word := readCells s.mem a.toNat

/-- `mem[a] <- v`, raw. -/
def State.setCell (s : State) (a v : Word) : State := { s with mem := writeCells s.mem a.toNat v }

/-! ## The keyboard (spec/10_state.md R31, R32; spec/20_memory.md R52 to R56, R70) -/

/-- KBSR, keyboard status. -/
def kbsrAddr : Word := 0xFE00#16

/-- KBDR, keyboard data. -/
def kbdrAddr : Word := 0xFE02#16

/-- The two addresses the Memory block intercepts (R60). -/
def isDevice (a : Word) : Bool := decide (a = kbsrAddr) || decide (a = kbdrAddr)

/-- READY = 1, the other bits 0 (R52; the low bits are decision D13, log 6). -/
def kbsrReady : Word := 0x8000#16

/-- The moment before the machine looks at the input source: what the environment appends by then is appended (R70). -/
def pollInput (s : State) : State :=
  match s.arrivals with
  | [] => s
  | now :: later => { s with kbq := s.kbq ++ now, arrivals := later }

/-- The characters pending and to come, in order: what the environment has appended and will append (R70). -/
def State.inputToCome (s : State) : List Byte := s.kbq ++ s.arrivals.flatten

/-- A read of KBSR, the pending characters being up to date (R52): probe, do not consume. -/
def readKbsr (s : State) : Word × State :=
  match s.kbq with
  | [] => (0x0000#16, s)
  | c :: _ => (kbsrReady, { s with kbChar := c })

/-- A read of KBDR, the pending characters being up to date: consume the pending character (R53), or give the last one
again (R54). -/
def readKbdr (s : State) : Word × State :=
  match s.kbq with
  | [] => (s.kbChar.setWidth 16, s)
  | c :: q => (c.setWidth 16, { s with kbq := q, kbChar := c })

/-! ## The two memory transactions -/

/-- `MemRead(a, 1)` (R51 to R54). -/
def memRead (a : Word) (s : State) : Word × State :=
  if a = kbsrAddr then readKbsr (pollInput s)
  else if a = kbdrAddr then readKbdr (pollInput s)
  else (s.cell a, s)

/-- `MemWrite(a, 1, v)`: stored verbatim at an ordinary address (R55), ignored at the two device addresses (R56). -/
def memWrite (a v : Word) (s : State) : State :=
  if isDevice a then s else s.setCell a v

/-! ## The character streams (spec/45_trap.md R162, R163) -/

/-- `Out(b)`: append to the output sink. -/
def outByte (b : Byte) (s : State) : State := { s with out := s.out ++ [b] }

/-- The pending characters once there are some, and the arrivals still to come: while none is pending, the environment's
next arrival is waited for. -/
def awaitInput : List Byte → List (List Byte) → List Byte × List (List Byte)
  | [], now :: later => awaitInput now later
  | q, later => (q, later)

/-- `In()`: remove the next character and remember it in `kb_char`; `none` if none is pending and none arrives, with the
moments waited through gone. -/
def takeChar (s : State) : Option Byte × State :=
  match awaitInput s.kbq s.arrivals with
  | ([], later) => (none, { s with kbq := [], arrivals := later })
  | (c :: q, later) => (some c, { s with kbq := q, kbChar := c, arrivals := later })

/-! ## Fetching, and the one fault -/

/-- The first half of a step (spec/10_state.md R28): the state becomes Running, the word at PC is read through the memory
port (R66, log 12), and PC is incremented "before anything else". -/
def fetch (s : State) : Word × State :=
  let r := memRead s.pc (s.setEngine .running)
  (r.1, r.2.setPc (s.pc + 1#16))

/-- The address of the instruction that is executing: PC is already one past it (R21). -/
def State.instrAddr (s : State) : Word := s.pc - 1#16

/-- `raise IllegalOpcode(A, op)` (spec/60_exceptions.md R190, R192): the engine is Faulted with the record, and nothing
else happens; PC keeps the post-increment value (D9, log 13). -/
def raiseIllegalOpcode (op : BitVec 4) (s : State) : State :=
  s.setEngine (.faulted (.illegalOpcode s.instrAddr op))

end Sys2Proof.Machine
end

