-- ==== Sys2Proof/Machine/Flags.lean ====
section
/-! DEFINITION. The condition flags: the three one-flag values (spec/10_state.md R23), the flag update `setcc` (R24), and
BR's test (spec/40_branch.md R110). -/

namespace Sys2Proof.Machine

open Sys2Proof

/-- NEGATIVE. The bit order is decision D2 (log 1). -/
def condN : BitVec 3 := 0b100#3

/-- ZERO. -/
def condZ : BitVec 3 := 0b010#3

/-- POSITIVE. -/
def condP : BitVec 3 := 0b001#3

/-- The flag of a 16-bit result as stored (R24): "0 → ZERO; 0x8000..0xFFFF → NEGATIVE; 0x0001..0x7FFF → POSITIVE". -/
def condOf (v : Word) : BitVec 3 :=
  if v = 0x0000#16 then condZ else if v.msb then condN else condP

/-- `setcc(r)`: the flag update from a register after it was written (R24). -/
def State.setcc (s : State) (r : Reg) : State := { s with cond := condOf (s.reg r) }

/-- `x[r] <- v; setcc(r)`, how each of ADD, AND, NOT, LD, LDI, LDR, LEA ends (R26). -/
def State.setRegCC (s : State) (r : Reg) (v : Word) : State := (s.setReg r v).setcc r

/-- BR's test `(ir[11:9] & cond) != 0` (R110). -/
def branchTaken (nzp : BitVec 3) (s : State) : Bool := decide (nzp &&& s.cond ≠ 0#3)

end Sys2Proof.Machine
end

