-- ==== Sys2Proof/Machine/Operands.lean ====
section
/-! DEFINITION. The operand forms: sign and zero extension (spec/00_scope.md R8, R9), the byte exchange of the image
boundary (R10), and the effective addresses (spec/20_memory.md R61). `pc` is the post-increment PC throughout. -/

namespace Sys2Proof.Machine

open Sys2Proof

/-- `sext_N(v)` (R8). -/
def sext {n : Nat} (v : BitVec n) : Word := v.signExtend 16

/-- `zext_N(v)` (R9). -/
def zext {n : Nat} (v : BitVec n) : Word := v.setWidth 16

/-- `w[7:0]`, the low byte (R6). -/
def lowByte (w : Word) : Byte := w.extractLsb' 0 8

/-- `w[15:8]`, the high byte (R6). -/
def highByte (w : Word) : Byte := w.extractLsb' 8 8

/-- `swap16(v)` (R10), used at the image boundary only. -/
def swap16 (v : Word) : Word := lowByte v ++ highByte v

/-- PC-relative: `pc + sext_N(offset)`, N = 9 or 11, modulo 2^16 (R61; 40_branch.md R110, 42_load.md R131, 44_jump.md R151). -/
def pcRelative {n : Nat} (off : BitVec n) (s : State) : Word := s.pc + sext off

/-- Base plus offset: `x[BaseR] + sext_6(offset6)` (R134, R143). -/
def basePlus (base : Reg) (off : BitVec 6) (s : State) : Word := s.reg base + sext off

end Sys2Proof.Machine
end

