-- ==== Sys2Proof/Machine/Alu.lean ====
section
/-! DEFINITION. ADD, AND and NOT (spec/41_alu.md): all sources are read before DR is written, then `setcc(DR)` (R120). -/

namespace Sys2Proof.Machine

open Sys2Proof

/-- ADD, register mode (R121). -/
def execAddReg (dr sr1 sr2 : Reg) (s : State) : Host.Outcome State Fault Refusal :=
  .next (s.setRegCC dr (s.reg sr1 + s.reg sr2))

/-- ADD, immediate mode (R122). -/
def execAddImm (dr sr1 : Reg) (imm : BitVec 5) (s : State) : Host.Outcome State Fault Refusal :=
  .next (s.setRegCC dr (s.reg sr1 + sext imm))

/-- AND, register mode (R123). -/
def execAndReg (dr sr1 sr2 : Reg) (s : State) : Host.Outcome State Fault Refusal :=
  .next (s.setRegCC dr (s.reg sr1 &&& s.reg sr2))

/-- AND, immediate mode (R124): the immediate is sign-extended. -/
def execAndImm (dr sr1 : Reg) (imm : BitVec 5) (s : State) : Host.Outcome State Fault Refusal :=
  .next (s.setRegCC dr (s.reg sr1 &&& sext imm))

/-- NOT (R126). -/
def execNot (dr sr : Reg) (s : State) : Host.Outcome State Fault Refusal :=
  .next (s.setRegCC dr (~~~ (s.reg sr)))

end Sys2Proof.Machine
end

