-- ==== Sys2Proof/Machine/Branch.lean ====
section
/-! DEFINITION. Conditional branch (spec/40_branch.md). -/

namespace Sys2Proof.Machine

open Sys2Proof

/-- BR (R110, R111). -/
def execBr (nzp : BitVec 3) (off : BitVec 9) (s : State) : Host.Outcome State Fault Refusal :=
  if branchTaken nzp s then .next (s.setPc (pcRelative off s)) else .next s

end Sys2Proof.Machine
end

