-- ==== Sys2Proof/Machine/Jump.lean ====
section
/-! DEFINITION. Jumps and subroutine calls (spec/44_jump.md); R7 is the link register (R153). -/

namespace Sys2Proof.Machine

open Sys2Proof

/-- JMP (R150); RET is the case BaseR = R7. -/
def execJmp (base : Reg) (s : State) : Host.Outcome State Fault Refusal :=
  .next (s.setPc (s.reg base))

/-- `x[7] <- pc`, the return address (R151, R152); no flag changes. -/
def saveReturn (s : State) : State := s.setReg .r7 s.pc

/-- JSR, PC-relative mode (R151). -/
def execJsr (off : BitVec 11) (s : State) : Host.Outcome State Fault Refusal :=
  .next ((saveReturn s).setPc (pcRelative off s))

/-- JSR, register mode (R152): R7 is written first and BaseR is read after, so that BaseR = R7 falls through (decision D6,
log 2). -/
def execJsrr (base : Reg) (s : State) : Host.Outcome State Fault Refusal :=
  let t := saveReturn s
  .next (t.setPc (t.reg base))

end Sys2Proof.Machine
end

