-- ==== Sys2Proof/Machine/Load.lean ====
section
/-! DEFINITION. Loads and load-address (spec/42_load.md): each writes DR and then does `setcc(DR)` (R130). -/

namespace Sys2Proof.Machine

open Sys2Proof

/-- `x[DR] <- MemRead(a, 1); setcc(DR)`. -/
def loadFrom (dr : Reg) (a : Word) (s : State) : State :=
  let r := memRead a s
  r.2.setRegCC dr r.1

/-- LD (R131). -/
def execLd (dr : Reg) (off : BitVec 9) (s : State) : Host.Outcome State Fault Refusal :=
  .next (loadFrom dr (pcRelative off s) s)

/-- LDI (R132): the pointer is read first, then the data. -/
def execLdi (dr : Reg) (off : BitVec 9) (s : State) : Host.Outcome State Fault Refusal :=
  let p := memRead (pcRelative off s) s
  .next (loadFrom dr p.1 p.2)

/-- LDR (R134): the base is read before DR is written. -/
def execLdr (dr base : Reg) (off : BitVec 6) (s : State) : Host.Outcome State Fault Refusal :=
  .next (loadFrom dr (basePlus base off s) s)

/-- LEA (R133): no memory access, and the flags are set. -/
def execLea (dr : Reg) (off : BitVec 9) (s : State) : Host.Outcome State Fault Refusal :=
  .next (s.setRegCC dr (pcRelative off s))

end Sys2Proof.Machine
end

