-- ==== Sys2Proof/Machine/Reserved.lean ====
section
/-! DEFINITION. The reserved opcodes (spec/46_reserved.md): both take the machine's one fault, which is a next state
(R182, log 24). -/

namespace Sys2Proof.Machine

open Sys2Proof

/-- RTI (R180): no return from anything; Faulted with the opcode as fetched. -/
def execRti (s : State) : Host.Outcome State Fault Refusal :=
  .next (raiseIllegalOpcode (opcodeValue .rti) s)

/-- RES (R181). -/
def execRes (s : State) : Host.Outcome State Fault Refusal :=
  .next (raiseIllegalOpcode (opcodeValue .res) s)

end Sys2Proof.Machine
end

