-- ==== Sys2Proof/Machine/Store.lean ====
section
/-! DEFINITION. Stores (spec/43_store.md): all 16 bits of SR through `MemWrite`; no register and no flag changes (R140). -/

namespace Sys2Proof.Machine

open Sys2Proof

/-- ST (R141). -/
def execSt (sr : Reg) (off : BitVec 9) (s : State) : Host.Outcome State Fault Refusal :=
  .next (memWrite (pcRelative off s) (s.reg sr) s)

/-- STI (R142): the pointer is read first, then the store. -/
def execSti (sr : Reg) (off : BitVec 9) (s : State) : Host.Outcome State Fault Refusal :=
  let p := memRead (pcRelative off s) s
  .next (memWrite p.1 (p.2.reg sr) p.2)

/-- STR (R143). -/
def execStr (sr base : Reg) (off : BitVec 6) (s : State) : Host.Outcome State Fault Refusal :=
  .next (memWrite (basePlus base off s) (s.reg sr) s)

end Sys2Proof.Machine
end

