-- ==== Sys2Proof/Config.lean ====
section
/-! DEFINITION. What the spec leaves to the implementation and the model takes as a free value. The other OPEN parameters
of spec/00_scope.md section 4 are: OPCODE_MAP, `Sys2Proof.opcodeMap` in Decode.lean; START_PC, an argument of
`Sys2Proof.Machine.Driver.boot`; UNKNOWN_TRAP, `Sys2Proof.Machine.unknownTrap` in Machine/Trap.lean. -/

namespace Sys2Proof

/-- IN_PROMPT, "a finite byte string": the bytes the service IN writes before it waits (spec/45_trap.md R167, decision
D16). The spec gives no text, so nothing in Lean can evaluate it: a free value (log 4). Safe. -/
opaque Config.inPrompt : List Byte

end Sys2Proof
end

