-- ==== Sys2Proof/Machine/Trap.lean ====
section
/-! DEFINITION. TRAP and the six services (spec/45_trap.md). A service runs inside the TRAP's step, writes no register but
R0, and changes neither PC, nor COND, nor memory (R161). GETC and IN wait while no character is pending (R163): the step
is then left open, `State.waiting` naming the service, and `resumeService` goes on with it (log 8). -/

namespace Sys2Proof.Machine

open Sys2Proof

/-- What a service does with the character it has waited for: GETC gives it in R0, zero-extended and unechoed (R164); IN
echoes it first (R167). -/
def finishService (w : Waiting) (c : Byte) (s : State) : State :=
  match w with
  | .getc => s.setReg .r0 (zext c)
  | .inp => (outByte c s).setReg .r0 (zext c)

/-- `c = In()` and then the rest of the service; with no character the service waits, its step open (R163). -/
def resumeService (w : Waiting) (s : State) : State :=
  match takeChar s with
  | (some c, t) => finishService w c { t with waiting := none }
  | (none, t) => { t with waiting := some w }

/-- GETC (R164). -/
def serviceGetc (s : State) : State := resumeService .getc s

/-- OUT (R165): the low byte of R0. -/
def serviceOut (s : State) : State := outByte (lowByte (s.reg .r0)) s

/-- IN (R167): the prompt is written before the service waits. -/
def serviceIn (s : State) : State := resumeService .inp { s with out := s.out ++ Config.inPrompt }

/-- The loop of PUTS from address `a` (R166): the low byte of each word up to a zero word. The first argument bounds the
number of words read. -/
def putsLoop : Nat → Word → State → Option State
  | 0, _, _ => none
  | n + 1, a, s =>
    let r := memRead a s
    if r.1 = 0x0000#16 then some r.2
    else putsLoop n (a + 1#16) (outByte (lowByte r.1) r.2)

/-- The loop of PUTSP from address `a` (R169): low byte, then high byte; a zero byte in either position ends it. -/
def putspLoop : Nat → Word → State → Option State
  | 0, _, _ => none
  | n + 1, a, s =>
    let r := memRead a s
    if lowByte r.1 = 0x00#8 then some r.2
    else
      let t := outByte (lowByte r.1) r.2
      if highByte r.1 = 0x00#8 then some t
      else putspLoop n (a + 1#16) (outByte (highByte r.1) t)

/-- How many words a string can have: each time round the 65536 addresses the string ends at 0xFE00 unless a character
is pending, and 0xFE02 then consumes one, so the characters pending and to come bound the rounds (log 9). -/
def stringBound (s : State) : Nat :=
  65536 * (s.kbq.length + (s.arrivals.map List.length).sum + 2)

/-- The outcome of a string service. -/
def stringOutcome : Option State → Host.Outcome State Fault Refusal
  | some t => .next t
  | none => .fault .endlessString

/-- PUTS (R166). -/
def servicePuts (s : State) : Host.Outcome State Fault Refusal :=
  stringOutcome (putsLoop (stringBound s) (s.reg .r0) s)

/-- PUTSP (R169). -/
def servicePutsp (s : State) : Host.Outcome State Fault Refusal :=
  stringOutcome (putspLoop (stringBound s) (s.reg .r0) s)

/-- HALT (R170): the engine is Halted, PC keeps the post-increment value (C1); flushing changes no state (D29, log 20). -/
def serviceHalt (s : State) : State := s.setEngine .halted

/-- UNKNOWN_TRAP, what a vector outside 0x20 to 0x25 does (R171): the default, no effect. DESIGN CHOICE among the values
of an OPEN parameter (decision D8, log 3). Unsafe. -/
def unknownTrap (_v : BitVec 8) (s : State) : State := s

/-- GETC, row of its own. -/
def execGetc (s : State) : Host.Outcome State Fault Refusal := .next (serviceGetc s)

/-- OUT, row of its own. -/
def execOut (s : State) : Host.Outcome State Fault Refusal := .next (serviceOut s)

/-- PUTS, row of its own. -/
def execPuts (s : State) : Host.Outcome State Fault Refusal := servicePuts s

/-- IN, row of its own. -/
def execIn (s : State) : Host.Outcome State Fault Refusal := .next (serviceIn s)

/-- PUTSP, row of its own. -/
def execPutsp (s : State) : Host.Outcome State Fault Refusal := servicePutsp s

/-- HALT, row of its own. -/
def execHalt (s : State) : Host.Outcome State Fault Refusal := .next (serviceHalt s)

/-- TRAP (R160): the vector is compared for equality with the service codes; every other vector is R171. -/
def execTrap (v : BitVec 8) (s : State) : Host.Outcome State Fault Refusal :=
  match v.toNat with
  | 0x20 => .next (serviceGetc s)
  | 0x21 => .next (serviceOut s)
  | 0x22 => servicePuts s
  | 0x23 => .next (serviceIn s)
  | 0x24 => servicePutsp s
  | 0x25 => .next (serviceHalt s)
  | _ => .next (unknownTrap v s)

end Sys2Proof.Machine
end

