-- ==== Sys2Proof/Machine/Step.lean ====
section
/-! DEFINITION. One step (spec/10_state.md R28), and the host's way to place an instruction where the next step fetches. -/

namespace Sys2Proof.Machine

open Sys2Proof

/-- One step: in Halted and Faulted it does nothing (R27, D26, log 23); a service that waits for a character goes on with
its open step (spec/45_trap.md R163, log 8); otherwise fetch, decode and execute. -/
def step (s : State) : Host.Outcome State Fault Refusal :=
  if s.engine.isTerminal then .next s
  else
    match s.waiting with
    | some w => .next (resumeService w s)
    | none => exec (decode (fetch s).1) (fetch s).2

/-- `s` with the instruction whose word is `w` in the cell that PC names, the bits from `nbits` up being 0. It goes through
`MemWrite`, as the image loader does (spec/70_reset_and_hazards.md R226, log 15). -/
def State.withFetchWord (s : State) (nbits w : Nat) : State :=
  memWrite s.pc (BitVec.ofNat 16 (w % 2 ^ nbits)) s

end Sys2Proof.Machine
end

