-- ==== Sys2Proof/Machine/Loader.lean ====
section
/-! DEFINITION. The image loader (spec/70_reset_and_hazards.md R224 to R229), the boot procedure's way to put a program
into memory. It stores through `MemWrite` (R226, log 28) and touches no register (R229). -/

namespace Sys2Proof.Machine

open Sys2Proof

/-- Why a load fails (R229; spec/60_exceptions.md R211): no exception of the CORE. -/
inductive ImageError where
  /-- "the source cannot be opened". -/
  | unreadable
  /-- "the origin cannot be fully read". -/
  | truncated
  deriving DecidableEq, Repr

/-- What the loader reports. -/
inductive LoadResult where
  | loaded (s : State)
  | failed (e : ImageError)
  deriving DecidableEq, Repr

/-- A word of the image: "the byte at the lower file offset is bits [15:8]" (spec/20_memory.md R57, R224). -/
def imageWord (first second : Byte) : Word := first ++ second

/-- The words of an image's body; "a trailing odd byte is ignored" (R228). -/
def imageWords : List Byte → List Word
  | first :: second :: rest => imageWord first second :: imageWords rest
  | _ => []

/-- The words stored one after the other from address `a` (R225). -/
def storeWords : List Word → Word → State → State
  | [], _, s => s
  | w :: ws, a, s => storeWords ws (a + 1#16) (memWrite a w s)

/-- `load(bytes)` (R225): the origin, then at most `65536 - origin` words, so that the load never wraps (R228). -/
def loadBytes (bytes : List Byte) (s : State) : LoadResult :=
  match bytes with
  | b0 :: b1 :: body =>
    let origin := imageWord b0 b1
    .loaded (storeWords ((imageWords body).take (65536 - origin.toNat)) origin s)
  | _ => .failed .truncated

/-- The loader; `none` is a source that cannot be opened. -/
def loadImage (source : Option (List Byte)) (s : State) : LoadResult :=
  match source with
  | none => .failed .unreadable
  | some bytes => loadBytes bytes s

/-- The origin word, which "the driver that wants `origin` reads from the image itself" (R229). -/
def imageOrigin : List Byte → Option Word
  | b0 :: b1 :: _ => some (imageWord b0 b1)
  | _ => none

end Sys2Proof.Machine
end

