-- ==== Sys2Proof/Machine/Driver.lean ====
section
/-! DEFINITION. What the outside world can do to the machine (spec/60_exceptions.md R213, R202, R208; spec/10_state.md
R41; spec/70_reset_and_hazards.md R220 to R230). Left out: the host's external interrupt, which abandons the machine
(R203, log 14), and terminal modes, which are no state of it (R204, R232, log 22). -/

namespace Sys2Proof.Machine

open Sys2Proof

/-- No step is open: the driver and the inspection port "see the machine only between steps" (R28). -/
def State.betweenSteps (s : State) : Bool := s.waiting.isNone

/-- The rows of R213 that touch the machine. -/
inductive Driver.Move where
  /-- Any time, any state (R220). -/
  | reset
  /-- After reset, before the first step, once (R225, R228). -/
  | load (source : Option (List Byte))
  /-- In Ready only (R230). -/
  | setPc (v : Word)
  /-- Between steps (R208). -/
  | presetReg (r : Reg) (v : Word)
  /-- Between steps, an ordinary cell (R208). -/
  | presetCell (a v : Word)
  /-- Any moment: a character is appended now (spec/20_memory.md R70). -/
  | typeChar (c : Byte)
  /-- Any moment: characters that will be appended at the coming moments at which the machine looks (R70, log 7). -/
  | schedule (later : List (List Byte))
  /-- One step (R28). -/
  | step
  deriving DecidableEq, Repr

/-- What became of the one image load that R213 allows after each reset. -/
inductive Driver.Image where
  /-- None was tried yet. -/
  | notYet
  | loaded
  /-- The load failed: "execution never starts" (R211). -/
  | failed (e : ImageError)
  deriving DecidableEq, Repr

/-- The machine, and what its driver knows of the run. Whether an image was loaded is no state of the machine (log 16). -/
structure Driver.Session where
  machine : State
  image : Driver.Image
  deriving DecidableEq, Repr

/-- A new run: the machine after reset, nothing loaded yet (R220). -/
def Driver.Session.start : Driver.Session := ⟨State.reset, .notYet⟩

/-- The session after the one load, with the loader's report (R225, R229). -/
def Driver.Session.withLoad (d : Driver.Session) : LoadResult → Driver.Session
  | .loaded t => ⟨t, .loaded⟩
  | .failed e => { d with image := .failed e }

/-- The driver may request a step: "When the loader fails ... the driver must not step it" (R211). -/
def Driver.Session.mayStep (d : Driver.Session) : Bool :=
  match d.image with
  | .notYet => true
  | .loaded => true
  | .failed _ => false

/-- A move's effect; `none` where R213 does not allow it. A second load, and a load after the first step, are refused
(R213 "once", spec/93_implementation_defined.md U17). -/
def Driver.apply (m : Driver.Move) (d : Driver.Session) : Option Driver.Session :=
  let s := d.machine
  match m with
  | .reset => some .start
  | .load source =>
    if s.engine = .ready ∧ d.image = .notYet then some (d.withLoad (loadImage source s)) else none
  | .setPc v => if s.engine = .ready then some { d with machine := s.setPc v } else none
  | .presetReg r v => if s.betweenSteps then some { d with machine := s.setReg r v } else none
  | .presetCell a v => if s.betweenSteps && !isDevice a then some { d with machine := s.setCell a v } else none
  | .typeChar c => some { d with machine := { s with kbq := s.kbq ++ [c] } }
  | .schedule later => some { d with machine := { s with arrivals := s.arrivals ++ later } }
  | .step =>
    if d.mayStep then
      match Sys2Proof.Machine.step s with
      | .next t => some { d with machine := t }
      | .fault _ => none
      | .refused _ => none
    else none

/-- Moves one after the other. -/
def Driver.applyAll : List Driver.Move → Driver.Session → Option Driver.Session
  | [], d => some d
  | m :: ms, d =>
    match Driver.apply m d with
    | some d' => Driver.applyAll ms d'
    | none => none

/-- The boot of R223: reset, load, then PC. START_PC is an OPEN parameter, by default the image's origin (R230, D11). -/
def Driver.boot (bytes : List Byte) (startPc : Option Word) : Option State :=
  match loadBytes bytes State.reset with
  | .loaded s => (imageOrigin bytes).map fun origin => s.setPc (startPc.getD origin)
  | .failed _ => none

/-- The driver's loop `while run and state not in {Halted, Faulted}: step()` (R202), over the values `run` has each time it
is sampled. It is sampled only between steps: while a service waits, its step goes on. -/
def Driver.drive : List Bool → State → Host.Outcome State Fault Refusal
  | [], s => .next s
  | run :: later, s =>
    if s.engine.isTerminal then .next s
    else if s.betweenSteps && !run then .next s
    else
      match step s with
      | .next t => Driver.drive later t
      | .fault f => .fault f
      | .refused r => .refused r

/-- Raw inspection of a cell (R208): the stored cell, without the keyboard's side effects. -/
def Driver.inspectCell (a : Word) (s : State) : Word := s.cell a

/-- The result of a run (spec/60_exceptions.md R195, R212). -/
inductive RunResult where
  | halted
  | faulted (reason : FaultReason)
  deriving DecidableEq, Repr

/-- Which terminal state was reached, with the fault record if Faulted; `none` while the run has not ended. -/
def State.result (s : State) : Option RunResult :=
  match s.engine with
  | .ready => none
  | .running => none
  | .halted => some .halted
  | .faulted reason => some (.faulted reason)

end Sys2Proof.Machine
end

