-- ==== Sys2Proof/Safety.lean ====
section
/-! DEFINITION. What counts as a safe run, and the invariant of the machine, in the terms the statements use. -/

namespace Sys2Proof.Machine

open Sys2Proof

/-- "A model's safety predicate is 'the state is not Faulted'" (spec/60_exceptions.md R195). -/
def State.safe (s : State) : Prop := ∀ reason, s.engine ≠ .faulted reason

/-- "A run that ends Halted has ended well" (R198). -/
def State.endedWell (s : State) : Prop := s.engine = .halted

/-- COND holds at most one flag: "The values 0b011, 0b101, 0b110 and 0b111 are never reached" (spec/10_state.md R25). -/
def State.condLegal (s : State) : Prop :=
  s.cond = 0b000#3 ∨ s.cond = condN ∨ s.cond = condZ ∨ s.cond = condP

/-- COND holds exactly one flag (R25). -/
def State.condOneFlag (s : State) : Prop := s.cond = condN ∨ s.cond = condZ ∨ s.cond = condP

/-- The cells under the device addresses hold 0x0000 "for ever" (spec/20_memory.md R50). -/
def State.deviceCellsClear (s : State) : Prop := s.cell kbsrAddr = 0x0000#16 ∧ s.cell kbdrAddr = 0x0000#16

/-- In Faulted, PC is one past the recorded address and the recorded opcode is that of RTI or RES (R29, R190). -/
def State.faultRecordRight (s : State) : Prop :=
  ∀ a op, s.engine = .faulted (.illegalOpcode a op) →
    s.pc = a + 1#16 ∧ (op = opcodeValue .rti ∨ op = opcodeValue .res)

/-- In Ready no instruction has executed: no flag is set (R25, R230) and nothing has been written to the output. -/
def State.readyFresh (s : State) : Prop := s.engine = .ready → s.cond = 0b000#3 ∧ s.kbChar = 0x00#8 ∧ s.out = []

/-- A service waits only while the engine is Running. -/
def State.waitsRunning (s : State) : Prop := s.waiting ≠ none → s.engine = .running

/-- The invariant of the machine. -/
structure State.Inv (s : State) : Prop where
  memory : Memory.wf s.mem = true
  devices : s.deviceCellsClear
  cond : s.condLegal
  fault : s.faultRecordRight
  ready : s.readyFresh
  waits : s.waitsRunning

/-! ## Reading one word after the other, and taking characters -/

/-- The words at `n` addresses from `a` on, read through the memory port one after the other and around the top of the
address space, and the state after them (spec/20_memory.md R69). -/
def readsFrom : Nat → Word → State → List Word × State
  | 0, _, s => ([], s)
  | n + 1, a, s =>
    let r := memRead a s
    let q := readsFrom n (a + 1#16) r.2
    (r.1 :: q.1, q.2)

/-- The instruction is a service that takes a character, or it reads the data register 0xFE02 (spec/20_memory.md R53,
45_trap.md R163), or it is a string service, which may read it (R69). `s` is the state after the fetch. -/
def mayTakeInput (i : Instr) (s : State) : Prop :=
  match i with
  | .br _ _ => False
  | .addReg _ _ _ => False
  | .addImm _ _ _ => False
  | .ld _ off => pcRelative off s = kbdrAddr
  | .st _ _ => False
  | .jsrr _ => False
  | .jsr _ => False
  | .andReg _ _ _ => False
  | .andImm _ _ _ => False
  | .ldr _ base off => basePlus base off s = kbdrAddr
  | .str _ _ _ => False
  | .rti => False
  | .not _ _ => False
  | .ldi _ off => pcRelative off s = kbdrAddr ∨ (memRead (pcRelative off s) s).1 = kbdrAddr
  | .sti _ off => pcRelative off s = kbdrAddr
  | .jmp _ => False
  | .res => False
  | .lea _ _ => False
  | .trap v => serviceVectors.contains v = true
  | .getc => True
  | .out => False
  | .puts => True
  | .inp => True
  | .putsp => True
  | .halt => False

/-! ## What a state shares with an earlier one -/

/-- The outcomes of the flag update as the spec tabulates them: "0 → ZERO; 0x8000..0xFFFF → NEGATIVE; 0x0001..0x7FFF →
POSITIVE" (R24). -/
def FlagsOf (v : Word) (c : BitVec 3) : Prop :=
  (v.toNat = 0 → c = condZ) ∧ (0x8000 ≤ v.toNat → c = condN) ∧ (1 ≤ v.toNat → v.toNat ≤ 0x7FFF → c = condP)

/-- Every general register reads the same. -/
def SameRegs (s t : State) : Prop := ∀ q, t.reg q = s.reg q

/-- Every general register but one reads the same. -/
def SameRegsBut (r : Reg) (s t : State) : Prop := ∀ q, q ≠ r → t.reg q = s.reg q

/-- Every cell of memory reads the same. -/
def SameMemory (s t : State) : Prop := ∀ a, t.cell a = s.cell a

/-- Every cell of memory but one reads the same. -/
def SameMemoryBut (b : Word) (s t : State) : Prop := ∀ a, a ≠ b → t.cell a = s.cell a

/-- The input source, its latch and the arrivals are the same. -/
def SameKeyboard (s t : State) : Prop := t.kbq = s.kbq ∧ t.kbChar = s.kbChar ∧ t.arrivals = s.arrivals

/-- The engine state, with any fault record, and the open service are the same. -/
def SameControl (s t : State) : Prop := t.engine = s.engine ∧ t.waiting = s.waiting

/-! ## The table of spec/10_state.md R38 -/

/-- The registers an instruction reads, by the table. JSRR reads BaseR after R7 was written, so the old R7 is not read. -/
def regsRead : Instr → List Reg
  | .br _ _ => []
  | .addReg _ sr1 sr2 => [sr1, sr2]
  | .addImm _ sr1 _ => [sr1]
  | .ld _ _ => []
  | .st sr _ => [sr]
  | .jsrr base => if base = .r7 then [] else [base]
  | .jsr _ => []
  | .andReg _ sr1 sr2 => [sr1, sr2]
  | .andImm _ sr1 _ => [sr1]
  | .ldr _ base _ => [base]
  | .str sr base _ => [sr, base]
  | .rti => []
  | .not _ sr => [sr]
  | .ldi _ _ => []
  | .sti sr _ => [sr]
  | .jmp base => [base]
  | .res => []
  | .lea _ _ => []
  | .trap _ => []
  | .getc => []
  | .out => [.r0]
  | .puts => [.r0]
  | .inp => []
  | .putsp => [.r0]
  | .halt => []

/-- The register an instruction writes, by the table. -/
def regWritten : Instr → Option Reg
  | .br _ _ => none
  | .addReg dr _ _ => some dr
  | .addImm dr _ _ => some dr
  | .ld dr _ => some dr
  | .st _ _ => none
  | .jsrr _ => some .r7
  | .jsr _ => some .r7
  | .andReg dr _ _ => some dr
  | .andImm dr _ _ => some dr
  | .ldr dr _ _ => some dr
  | .str _ _ _ => none
  | .rti => none
  | .not dr _ => some dr
  | .ldi dr _ => some dr
  | .sti _ _ => none
  | .jmp _ => none
  | .res => none
  | .lea dr _ => some dr
  | .trap _ => none
  | .getc => some .r0
  | .out => none
  | .puts => none
  | .inp => some .r0
  | .putsp => none
  | .halt => none

/-- The register whose value sets the flags, for "exactly these instructions": ADD, AND, NOT, LD, LDI, LDR, LEA (R26). -/
def flagReg : Instr → Option Reg
  | .br _ _ => none
  | .addReg dr _ _ => some dr
  | .addImm dr _ _ => some dr
  | .ld dr _ => some dr
  | .st _ _ => none
  | .jsrr _ => none
  | .jsr _ => none
  | .andReg dr _ _ => some dr
  | .andImm dr _ _ => some dr
  | .ldr dr _ _ => some dr
  | .str _ _ _ => none
  | .rti => none
  | .not dr _ => some dr
  | .ldi dr _ => some dr
  | .sti _ _ => none
  | .jmp _ => none
  | .res => none
  | .lea dr _ => some dr
  | .trap _ => none
  | .getc => none
  | .out => none
  | .puts => none
  | .inp => none
  | .putsp => none
  | .halt => none

end Sys2Proof.Machine
end

