-- ==== Sys2Proof/Certificates/Slice0/Obligations.lean ====
section
/-! DEFINITION. The statements for the provers, from the numbered rules of spec/. "Model's choice" in a docstring names the
log entry (notes/assumptions) of a convention that is not the source's. -/

open Sys2Proof Sys2Proof.Machine

/-! ## Encoding (spec/30_encoding.md) -/

/-- Decode and encode agree on every well-formed instruction with every operand at every value its field admits. The words
are those of R91, with the numbering of decision D1 (log 1). -/
def Obligations.DecodeOfEncodeIsTheInstruction : Prop :=
  ∀ i : Instr, i.wf = true → decode (encode i) = i

/-- Every one of the 65536 words decodes to a well-formed instruction, whose mnemonic is that of the opcode map at bits
[15:12] (R86). -/
def Obligations.EveryWordDecodesByItsOpcodeField : Prop :=
  ∀ w : Word, (decode w).wf = true ∧ (decode w).opcode = opcodeMap (w.extractLsb' 12 4) ∧
    decode (encode (decode w)) = decode w

/-- The table of the notation as numbers (R91): each canonical word is the row's base plus its fields at their places.
The numbering, field places and canonical unused bits are decisions D1 to D4 and D23 (log 1, log 18). -/
def Obligations.EncodeGivesTheNotationTable : Prop :=
  (∀ nzp off, (encode (.br nzp off)).toNat = 0x0000 + nzp.toNat * 2 ^ 9 + off.toNat) ∧
  (∀ dr sr1 sr2, (encode (.addReg dr sr1 sr2)).toNat =
    0x1000 + (regBits dr).toNat * 2 ^ 9 + (regBits sr1).toNat * 2 ^ 6 + (regBits sr2).toNat) ∧
  (∀ dr sr1 imm, (encode (.addImm dr sr1 imm)).toNat =
    0x1020 + (regBits dr).toNat * 2 ^ 9 + (regBits sr1).toNat * 2 ^ 6 + imm.toNat) ∧
  (∀ dr off, (encode (.ld dr off)).toNat = 0x2000 + (regBits dr).toNat * 2 ^ 9 + off.toNat) ∧
  (∀ sr off, (encode (.st sr off)).toNat = 0x3000 + (regBits sr).toNat * 2 ^ 9 + off.toNat) ∧
  (∀ base, (encode (.jsrr base)).toNat = 0x4000 + (regBits base).toNat * 2 ^ 6) ∧
  (∀ off, (encode (.jsr off)).toNat = 0x4800 + off.toNat) ∧
  (∀ dr sr1 sr2, (encode (.andReg dr sr1 sr2)).toNat =
    0x5000 + (regBits dr).toNat * 2 ^ 9 + (regBits sr1).toNat * 2 ^ 6 + (regBits sr2).toNat) ∧
  (∀ dr sr1 imm, (encode (.andImm dr sr1 imm)).toNat =
    0x5020 + (regBits dr).toNat * 2 ^ 9 + (regBits sr1).toNat * 2 ^ 6 + imm.toNat) ∧
  (∀ dr base off, (encode (.ldr dr base off)).toNat =
    0x6000 + (regBits dr).toNat * 2 ^ 9 + (regBits base).toNat * 2 ^ 6 + off.toNat) ∧
  (∀ sr base off, (encode (.str sr base off)).toNat =
    0x7000 + (regBits sr).toNat * 2 ^ 9 + (regBits base).toNat * 2 ^ 6 + off.toNat) ∧
  (encode .rti).toNat = 0x8000 ∧
  (∀ dr sr, (encode (.not dr sr)).toNat = 0x903F + (regBits dr).toNat * 2 ^ 9 + (regBits sr).toNat * 2 ^ 6) ∧
  (∀ dr off, (encode (.ldi dr off)).toNat = 0xA000 + (regBits dr).toNat * 2 ^ 9 + off.toNat) ∧
  (∀ sr off, (encode (.sti sr off)).toNat = 0xB000 + (regBits sr).toNat * 2 ^ 9 + off.toNat) ∧
  (∀ base, (encode (.jmp base)).toNat = 0xC000 + (regBits base).toNat * 2 ^ 6) ∧
  (encode .res).toNat = 0xD000 ∧
  (∀ dr off, (encode (.lea dr off)).toNat = 0xE000 + (regBits dr).toNat * 2 ^ 9 + off.toNat) ∧
  (∀ v, (encode (.trap v)).toNat = 0xF000 + v.toNat) ∧
  (encode .getc).toNat = 0xF020 ∧ (encode .out).toNat = 0xF021 ∧ (encode .puts).toNat = 0xF022 ∧
  (encode .inp).toNat = 0xF023 ∧ (encode .putsp).toNat = 0xF024 ∧ (encode .halt).toNat = 0xF025

/-- The rows of spec/opcode_table.json partition the words: a word's row, by mask and match, is the constructor it decodes
to. The row TRAP is the vectors that no service row has. -/
def Obligations.MaskAndMatchSelectTheRow : Prop :=
  ∀ w : Word,
    (w &&& 0xF000#16 = 0x0000#16 ↔ ∃ nzp off, decode w = .br nzp off) ∧
    (w &&& 0xF020#16 = 0x1000#16 ↔ ∃ dr sr1 sr2, decode w = .addReg dr sr1 sr2) ∧
    (w &&& 0xF020#16 = 0x1020#16 ↔ ∃ dr sr1 imm, decode w = .addImm dr sr1 imm) ∧
    (w &&& 0xF000#16 = 0x2000#16 ↔ ∃ dr off, decode w = .ld dr off) ∧
    (w &&& 0xF000#16 = 0x3000#16 ↔ ∃ sr off, decode w = .st sr off) ∧
    (w &&& 0xF800#16 = 0x4000#16 ↔ ∃ base, decode w = .jsrr base) ∧
    (w &&& 0xF800#16 = 0x4800#16 ↔ ∃ off, decode w = .jsr off) ∧
    (w &&& 0xF020#16 = 0x5000#16 ↔ ∃ dr sr1 sr2, decode w = .andReg dr sr1 sr2) ∧
    (w &&& 0xF020#16 = 0x5020#16 ↔ ∃ dr sr1 imm, decode w = .andImm dr sr1 imm) ∧
    (w &&& 0xF000#16 = 0x6000#16 ↔ ∃ dr base off, decode w = .ldr dr base off) ∧
    (w &&& 0xF000#16 = 0x7000#16 ↔ ∃ sr base off, decode w = .str sr base off) ∧
    (w &&& 0xF000#16 = 0x8000#16 ↔ decode w = .rti) ∧
    (w &&& 0xF000#16 = 0x9000#16 ↔ ∃ dr sr, decode w = .not dr sr) ∧
    (w &&& 0xF000#16 = 0xA000#16 ↔ ∃ dr off, decode w = .ldi dr off) ∧
    (w &&& 0xF000#16 = 0xB000#16 ↔ ∃ sr off, decode w = .sti sr off) ∧
    (w &&& 0xF000#16 = 0xC000#16 ↔ ∃ base, decode w = .jmp base) ∧
    (w &&& 0xF000#16 = 0xD000#16 ↔ decode w = .res) ∧
    (w &&& 0xF000#16 = 0xE000#16 ↔ ∃ dr off, decode w = .lea dr off) ∧
    (w &&& 0xF0FF#16 = 0xF020#16 ↔ decode w = .getc) ∧
    (w &&& 0xF0FF#16 = 0xF021#16 ↔ decode w = .out) ∧
    (w &&& 0xF0FF#16 = 0xF022#16 ↔ decode w = .puts) ∧
    (w &&& 0xF0FF#16 = 0xF023#16 ↔ decode w = .inp) ∧
    (w &&& 0xF0FF#16 = 0xF024#16 ↔ decode w = .putsp) ∧
    (w &&& 0xF0FF#16 = 0xF025#16 ↔ decode w = .halt) ∧
    ((w &&& 0xF000#16 = 0xF000#16 ∧ serviceVectors.contains (w.extractLsb' 0 8) = false) ↔
      ∃ v, decode w = .trap v)

/-- The bits a format calls unused are not examined (R88, decision D5, log 18): changing any of them changes nothing. -/
def Obligations.UnusedBitsAreIgnored : Prop :=
  ∀ w d : Word,
    (w &&& 0xF020#16 = 0x1000#16 → decode (w ^^^ (d &&& 0x0018#16)) = decode w) ∧
    (w &&& 0xF020#16 = 0x5000#16 → decode (w ^^^ (d &&& 0x0018#16)) = decode w) ∧
    (w &&& 0xF000#16 = 0x9000#16 → decode (w ^^^ (d &&& 0x003F#16)) = decode w) ∧
    (w &&& 0xF000#16 = 0xC000#16 → decode (w ^^^ (d &&& 0x0E3F#16)) = decode w) ∧
    (w &&& 0xF800#16 = 0x4000#16 → decode (w ^^^ (d &&& 0x063F#16)) = decode w) ∧
    (w &&& 0xF000#16 = 0xF000#16 → decode (w ^^^ (d &&& 0x0F00#16)) = decode w) ∧
    (w &&& 0xF000#16 = 0x8000#16 → decode (w ^^^ (d &&& 0x0FFF#16)) = decode w) ∧
    (w &&& 0xF000#16 = 0xD000#16 → decode (w ^^^ (d &&& 0x0FFF#16)) = decode w)

/-- A few words written out from the spec's encodings decode to what they stand for (spec/95_test_vectors.md section 11). -/
def Obligations.WordsWrittenOutDecode : Prop :=
  decode 0b0000_001_111111101#16 = .br 0b001#3 0x1FD#9 ∧
  decode 0b0001_001_000_1_11101#16 = .addImm .r1 .r0 0x1D#5 ∧
  decode 0b0110_010_001_111111#16 = .ldr .r2 .r1 0x3F#6 ∧
  decode 0b0111_000_110_111111#16 = .str .r0 .r6 0x3F#6 ∧
  decode 0b0100_0_00_010_000000#16 = .jsrr .r2 ∧
  decode 0b1101_000100100011#16 = .res ∧
  decode 0b1111_1111_0010_0101#16 = .halt

/-! ## Operands and flags -/

/-- `sext_N` for 1 ≤ N ≤ 16 (spec/00_scope.md R8): the low N bits are v, the bits above all equal v's top bit, the two
number forms, and the two laws. -/
def Obligations.SignExtensionFillsWithTheTopBit : Prop :=
  ∀ (n : Nat), 1 ≤ n → n ≤ 16 → ∀ v : BitVec n,
    (∀ k, k < n → (sext v).getLsbD k = v.getLsbD k) ∧
    (∀ k, n ≤ k → k < 16 → (sext v).getLsbD k = v.getLsbD (n - 1)) ∧
    (v.getLsbD (n - 1) = false → (sext v).toNat = v.toNat ∧ sext v = zext v) ∧
    (v.getLsbD (n - 1) = true → (sext v).toNat = v.toNat + 65536 - 2 ^ n) ∧
    sext ((sext v).extractLsb' 0 n) = sext v

/-- `zext_N` (R9) and `swap16` (R10): the formulas, and that swapping twice is nothing. -/
def Obligations.ZeroExtensionAndByteSwap : Prop :=
  (∀ b : Byte, (zext b).toNat = b.toNat) ∧
  (∀ v : Word, swap16 v = (zext (lowByte v) <<< 8) ||| zext (highByte v)) ∧
  (∀ v : Word, swap16 (swap16 v) = v)

/-- `setcc(r)` (R24): ZERO, NEGATIVE or POSITIVE by the register's value as stored, exactly one flag, and nothing but COND
changes. Which bit is which flag is decision D2 (log 1), and no clause rests on it. -/
def Obligations.FlagUpdateFollowsTheStoredValue : Prop :=
  ∀ (s : State) (r : Reg),
    FlagsOf (s.reg r) (s.setcc r).cond ∧
    (((s.reg r) = 0x0000#16 ∧ (s.setcc r).cond = condZ) ∨
      ((s.reg r) ≠ 0x0000#16 ∧ (s.reg r).getLsbD 15 = true ∧ (s.setcc r).cond = condN) ∨
      ((s.reg r) ≠ 0x0000#16 ∧ (s.reg r).getLsbD 15 = false ∧ (s.setcc r).cond = condP)) ∧
    (∃ k, k < 3 ∧ ∀ j, j < 3 → ((s.setcc r).cond.getLsbD j = true ↔ j = k)) ∧
    SameRegs s (s.setcc r) ∧ (s.setcc r).pc = s.pc ∧ SameMemory s (s.setcc r) ∧ SameKeyboard s (s.setcc r) ∧
    SameControl s (s.setcc r) ∧ (s.setcc r).out = s.out

/-- What writes and what reads COND (R26): ADD, AND, NOT, LD, LDI, LDR and LEA set it from the register they wrote; no
other instruction changes it; and only BR's effect depends on it. -/
def Obligations.OnlyResultsWriteCondAndOnlyBrReadsIt : Prop :=
  ∀ (i : Instr) (s t : State), exec i s = .next t →
    (∀ r, flagReg i = some r → FlagsOf (t.reg r) t.cond) ∧
    (flagReg i = none → t.cond = s.cond) ∧
    ((∀ nzp off, i ≠ .br nzp off) → ∀ c : BitVec 3,
      exec i { s with cond := c } = .next { t with cond := if flagReg i = none then c else t.cond })

/-! ## The step, the program counter, the terminal states -/

/-- A step runs the decoded instruction (R28): with no step open and the engine not terminal, the word read at PC through
the memory port is decoded and executed in the state after the fetch, in which the engine is Running and PC is one more.
The premise on `waiting` is the model's (log 8). -/
def Obligations.StepRunsTheDecodedInstruction : Prop :=
  ∀ (s : State) (i : Instr), s.engine.isTerminal = false → s.waiting = none →
    decode (memRead s.pc { s with engine := .running }).1 = i → i.wf = true →
    step s = exec i { (memRead s.pc { s with engine := .running }).2 with pc := s.pc + 1#16 }

/-- Where each step leaves PC (R22): every fetch adds 1 modulo 2^16; BR, JMP, JSR and JSRR then write it, and no other
instruction does. JSRR with base R7 falls through (decision D6, log 2). -/
def Obligations.HowEachInstructionAdvancesPc : Prop :=
  ∀ s t : State, s.engine.isTerminal = false → s.waiting = none → step s = .next t →
    let i := decode (fetch s).1
    (∀ nzp off, i = .br nzp off →
      t.pc = if nzp &&& s.cond ≠ 0#3 then s.pc + 1#16 + sext off else s.pc + 1#16) ∧
    (∀ base, i = .jmp base → t.pc = s.reg base) ∧
    (∀ off, i = .jsr off → t.pc = s.pc + 1#16 + sext off) ∧
    (∀ base, i = .jsrr base → t.pc = if base = .r7 then s.pc + 1#16 else s.reg base) ∧
    ((∀ nzp off, i ≠ .br nzp off) → (∀ base, i ≠ .jmp base) → (∀ off, i ≠ .jsr off) → (∀ base, i ≠ .jsrr base) →
      t.pc = s.pc + 1#16)

/-- The one exception (spec/60_exceptions.md R190): a step enters Faulted exactly when the word fetched is RTI or RES, and
then records the address it was fetched from and its bits [15:12], nothing else of the instruction happening. -/
def Obligations.OnlyReservedOpcodesFault : Prop :=
  ∀ s : State, s.engine.isTerminal = false → s.waiting = none →
    ((∃ t reason, step s = .next t ∧ t.engine = .faulted reason) ↔
      (decode (fetch s).1 = .rti ∨ decode (fetch s).1 = .res)) ∧
    ((decode (fetch s).1 = .rti ∨ decode (fetch s).1 = .res) →
      step s = .next { (fetch s).2 with
        engine := .faulted (.illegalOpcode s.pc ((fetch s).1.extractLsb' 12 4)) })

/-- In Halted and in Faulted a step does nothing at all: no fetch, no PC increment (R27, decision D26, log 23). -/
def Obligations.TerminalStatesDoNothing : Prop :=
  ∀ s : State, (s.engine = .halted ∨ ∃ reason, s.engine = .faulted reason) → step s = .next s

/-- Faulted is reported, sticky and final (R195): the state is not safe, the result is the record, the run stops, no number
of steps leaves the state or changes the record, nor does a move of the outside world other than reset, which starts
again. -/
def Obligations.FaultedIsReportedStickyAndFinal : Prop :=
  ∀ (s : State) (reason : FaultReason), s.engine = .faulted reason →
    ¬ s.safe ∧ s.result = some (.faulted reason) ∧ (∀ runs, Driver.drive runs s = .next s) ∧
    (∀ n, ∃ t, Host.Core.run Sys2Proof.core n s = .next t ∧ t.engine = .faulted reason) ∧
    ∀ image, (∀ m d, m ≠ .reset → Driver.apply m ⟨s, image⟩ = some d → d.machine.engine = .faulted reason) ∧
      Driver.apply .reset ⟨s, image⟩ = some ⟨State.reset, .notYet⟩

/-- HALT is the normal end of a run (R198): it makes the engine Halted, no further instruction executes, and no other
instruction reaches Halted. That a step in Halted changes nothing at all is decision D26 (R27, log 23), and that no service
waits then is the model's (log 8). -/
def Obligations.HaltedIsReachedByHaltOnlyAndIsFinal : Prop :=
  (∀ s : State, ∃ t, exec .halt s = .next t ∧ t.endedWell ∧ t.result = some .halted) ∧
  (∀ (s : State) (n : Nat), s.engine = .halted → Host.Core.run Sys2Proof.core n s = .next s) ∧
  (∀ s t : State, s.engine ≠ .halted → step s = .next t → t.engine = .halted →
    s.waiting = none ∧ decode (fetch s).1 = .halt)

/-- Every step answers a next state, from every state: the machine never stops without one, a service without a character
waits (R242, log 8), and a string always ends when finitely many characters arrive (log 9). -/
def Obligations.EveryInstructionAnswersANextState : Prop :=
  (∀ (i : Instr) (s : State), ∃ t, exec i s = .next t) ∧ (∀ s : State, ∃ t, step s = .next t)

/-! ## Reset -/

/-- The state after reset, the table of R37; PC, COND and Ready are decisions D10 and D11 (log 5), the keyboard's D13. -/
def Obligations.ResetLeavesTheZeroState : Prop :=
  (∀ r, State.reset.reg r = 0x0000#16) ∧ State.reset.pc = 0x0000#16 ∧ State.reset.cond = 0b000#3 ∧
  State.reset.engine = .ready ∧ State.reset.result = none ∧ (∀ a, State.reset.cell a = 0x0000#16) ∧
  State.reset.kbq = [] ∧ State.reset.kbChar = 0x00#8 ∧ State.reset.out = [] ∧ State.reset.waiting = none

/-- With nothing loaded the machine executes zero words, which are no-operations, for ever (R221, R90; the word 0x0000 being
BR is decision D1, log 1): n steps only move PC, around the top of the address space too. -/
def Obligations.EmptyMemoryIsWalkedThrough : Prop :=
  ∀ (s : State) (n : Nat), s.engine.isTerminal = false → s.waiting = none → (∀ a, s.cell a = 0x0000#16) →
    s.kbq = [] → s.arrivals = [] →
    Host.Core.run Sys2Proof.core (n + 1) s =
      .next { s with pc := s.pc + BitVec.ofNat 16 (n + 1), engine := .running }

/-! ## Invariants -/

/-- Reset meets the invariant of the machine. -/
def Obligations.ResetMeetsTheInvariant : Prop := State.reset.Inv

/-- Every step keeps the invariant: canonical memory (R50), clear device cells (R50, R56), legal flags (R25), a right fault
record (R29), Ready only before the first instruction (R27), waiting only while Running (log 8). -/
def Obligations.StepKeepsTheInvariant : Prop :=
  ∀ s t : State, s.Inv → step s = .next t → t.Inv

/-- Whatever the outside world does (R213), in whatever order, every state of the machine from reset on meets the
invariant. -/
def Obligations.EveryReachableStateMeetsTheInvariant : Prop :=
  ∀ (ms : List Driver.Move) (d : Driver.Session), Driver.applyAll ms .start = some d → d.machine.Inv

/-- "From the first setcc on, exactly one bit of cond is set, for ever" (R25): no step loses the one flag. -/
def Obligations.OneFlagStaysOneFlag : Prop :=
  ∀ s t : State, s.condOneFlag → step s = .next t → t.condOneFlag

/-- The output sink is append-only (R33). -/
def Obligations.OutputOnlyGrows : Prop :=
  ∀ s t : State, step s = .next t → s.out <+: t.out

/-- No instruction reads the output sink (R33): what stands in it changes nothing else. -/
def Obligations.OutputIsNeverRead : Prop :=
  ∀ (earlier : List Byte) (s t : State), step s = .next t →
    step { s with out := earlier ++ s.out } = .next { t with out := earlier ++ t.out }

/-- Characters are never lost, reordered or duplicated (R70; the queue is decision D13, log 6): a step takes characters
from the front of the input, only where it runs GETC or IN or goes on with one of them, or reads 0xFE02, by the fetch too,
or runs PUTS or PUTSP (whose reads the statements about them give); any other step takes at most one, and remembers it. The
list of arrivals is the model's (log 7), and so is the service that waits (log 8). -/
def Obligations.InputIsFirstInFirstOut : Prop :=
  ∀ s t : State, step s = .next t → ∃ consumed, s.inputToCome = consumed ++ t.inputToCome ∧
    (consumed ≠ [] → s.engine.isTerminal = false ∧
      (s.waiting ≠ none ∨ s.pc = 0xFE02#16 ∨ mayTakeInput (decode (fetch s).1) (fetch s).2)) ∧
    ((s.waiting ≠ none ∨ (decode (fetch s).1 ≠ .puts ∧ decode (fetch s).1 ≠ .putsp)) →
      consumed = [] ∨ consumed = [t.kbChar])

/-- The canonical form is one form: two memories in it that read the same everywhere are the same data (log 10). -/
def Obligations.CanonicalMemoriesThatReadTheSameAreEqual : Prop :=
  ∀ m m' : List Cell, Memory.wf m = true → Memory.wf m' = true →
    (∀ a, a < 65536 → readCells m a = readCells m' a) → m = m'

/-! ## Memory and the keyboard (spec/20_memory.md) -/

/-- A read of an ordinary address returns the stored word and changes nothing, so that reading again returns the same
(R51). -/
def Obligations.OrdinaryReadReturnsTheCellAndChangesNothing : Prop :=
  ∀ (s : State) (a : Word), a ≠ 0xFE00#16 → a ≠ 0xFE02#16 →
    memRead a s = (s.cell a, s) ∧ (memRead a (memRead a s).2).1 = s.cell a

/-- A write at an ordinary address stores all 16 bits verbatim, whatever stood there (R55), and only there. -/
def Obligations.OrdinaryWriteStoresVerbatim : Prop :=
  ∀ (s : State) (a v : Word), Memory.wf s.mem = true → a ≠ 0xFE00#16 → a ≠ 0xFE02#16 →
    (memWrite a v s).cell a = v ∧ (memRead a (memWrite a v s)).1 = v ∧ SameMemoryBut a s (memWrite a v s) ∧
    SameRegs s (memWrite a v s) ∧ (memWrite a v s).pc = s.pc ∧ (memWrite a v s).cond = s.cond ∧
    SameKeyboard s (memWrite a v s) ∧ SameControl s (memWrite a v s) ∧ (memWrite a v s).out = s.out

/-- A write at a device address changes nothing at all (R56, decision D14). -/
def Obligations.DeviceWritesAreIgnored : Prop :=
  ∀ (s : State) (v : Word), memWrite 0xFE00#16 v s = s ∧ memWrite 0xFE02#16 v s = s

/-- Keyboard status (R52): a probe that never consumes. With nothing pending it reads 0x0000, else 0x8000 and the first
character is remembered; the low bits are decision D13 (log 6). The input is as of this read. -/
def Obligations.StatusReadProbesWithoutConsuming : Prop :=
  ∀ s : State,
    let r := memRead 0xFE00#16 s
    ((pollInput s).kbq = [] → r.1 = 0x0000#16 ∧ r.2 = pollInput s) ∧
    (∀ c q, (pollInput s).kbq = c :: q → r.1 = 0x8000#16 ∧ r.2 = { pollInput s with kbChar := c }) ∧
    r.2.inputToCome = s.inputToCome

/-- Keyboard data with a character pending (R53): it is returned zero-extended, removed and remembered, with or without a
probe before; a status read after it then tells of further characters only. The input is as of this read, by the model's
list of arrivals (log 7); the queue is decision D13 (log 6). -/
def Obligations.DataReadConsumesThePendingCharacter : Prop :=
  ∀ (s : State) (c : Byte) (q : List Byte), (pollInput s).kbq = c :: q →
    let r := memRead 0xFE02#16 s
    r.1.extractLsb' 0 8 = c ∧ r.1.extractLsb' 8 8 = 0x00#8 ∧ r.2 = { pollInput s with kbq := q, kbChar := c } ∧
    ((memRead 0xFE00#16 r.2).1 = 0x0000#16 ↔ (pollInput r.2).kbq = []) ∧
    (memRead 0xFE02#16 (memRead 0xFE00#16 { s with arrivals := [], kbq := c :: q }).2).1 = r.1

/-- Keyboard data with nothing pending (R54, decision D13, log 6): the last character again, nothing changes. -/
def Obligations.IdleDataReadRepeatsTheLastCharacter : Prop :=
  ∀ s : State, (pollInput s).kbq = [] →
    memRead 0xFE02#16 s = (zext s.kbChar, pollInput s) ∧ (pollInput s).kbChar = s.kbChar

/-- A store is seen by the very next fetch (section 4): with the store's address the next instruction's, an ordinary one,
the next step runs the word stored. -/
def Obligations.StoreIsSeenByTheVeryNextFetch : Prop :=
  ∀ (s t : State) (sr base : Reg) (off : BitVec 6), Memory.wf s.mem = true → s.engine = .running → s.waiting = none →
    basePlus base off s = s.pc → isDevice s.pc = false → exec (.str sr base off) s = .next t →
    (fetch t).1 = s.reg sr ∧ step t = exec (decode (s.reg sr)) (t.setPc (s.pc + 1#16))

/-! ## BR, ADD, AND, NOT -/

/-- BR (R110): taken when the mask and COND share a flag; nothing else changes. The mask's bits are n, z, p, and the three
values that the flag update gives COND are the flags those bits name, by decision D2 (R23, log 1). -/
def Obligations.BrAddsTheOffsetWhenTheMaskMeetsCond : Prop :=
  ∀ (n z p : Bool) (off : BitVec 9) (s : State), ∃ t,
    exec (.br (BitVec.ofBool n ++ BitVec.ofBool z ++ BitVec.ofBool p) off) s = .next t ∧
    t.pc = (if (n && s.cond.getLsbD 2) || (z && s.cond.getLsbD 1) || (p && s.cond.getLsbD 0)
      then s.pc + sext off else s.pc) ∧
    (s.cond = condN → t.pc = if n then s.pc + sext off else s.pc) ∧
    (s.cond = condZ → t.pc = if z then s.pc + sext off else s.pc) ∧
    (s.cond = condP → t.pc = if p then s.pc + sext off else s.pc) ∧
    (s.cond = 0b000#3 → t.pc = s.pc) ∧
    SameRegs s t ∧ t.cond = s.cond ∧ SameMemory s t ∧ SameKeyboard s t ∧ SameControl s t ∧ t.out = s.out

/-- What ADD, AND and NOT have in common (R120): the result is computed from the sources as they were before DR is written,
whichever registers coincide; the flags are those of the result; no memory transaction, no fault, PC as it was. In
immediate mode bits [4:0] are the immediate, and no second register is read. -/
def Obligations.AluReadsItsSourcesBeforeWritingDr : Prop :=
  (∀ (i : Instr) (dr : Reg) (v : Word) (s : State),
    ((∃ sr1 sr2, i = .addReg dr sr1 sr2 ∧ v.toNat = ((s.reg sr1).toNat + (s.reg sr2).toNat) % 65536) ∨
      (∃ sr1 imm, i = .addImm dr sr1 imm ∧ v.toNat = ((s.reg sr1).toNat + (sext imm).toNat) % 65536) ∨
      (∃ sr1 sr2, i = .andReg dr sr1 sr2 ∧
        ∀ k, v.getLsbD k = ((s.reg sr1).getLsbD k && (s.reg sr2).getLsbD k)) ∨
      (∃ sr1 imm, i = .andImm dr sr1 imm ∧
        ∀ k, v.getLsbD k = ((s.reg sr1).getLsbD k && (sext imm).getLsbD k)) ∨
      (∃ sr, i = .not dr sr ∧ v.toNat = 0xFFFF - (s.reg sr).toNat)) →
    ∃ t, exec i s = .next t ∧ t.reg dr = v ∧ FlagsOf v t.cond ∧ SameRegsBut dr s t ∧ t.pc = s.pc ∧ SameMemory s t ∧
      SameKeyboard s t ∧ SameControl s t ∧ t.out = s.out) ∧
  (∀ (w : Word) (dr sr1 : Reg) (imm : BitVec 5),
    (decode w = .addImm dr sr1 imm ∨ decode w = .andImm dr sr1 imm) → imm = w.extractLsb' 0 5)

/-- Overflow is not detected (section on ADD; R125): in both modes the sum is the true sum of the two operands as unsigned
numbers, less 65536 when it does not fit; the flags are those of the stored result, NEGATIVE after two positive numbers
whose sum passes 0x7FFF; and no other state tells of the carry, since nothing else changes. -/
def Obligations.AddDropsTheCarryAndFlagsTheStoredSum : Prop :=
  ∀ (i : Instr) (dr : Reg) (a b : Word) (s : State),
    ((∃ sr1 sr2, i = .addReg dr sr1 sr2 ∧ a = s.reg sr1 ∧ b = s.reg sr2) ∨
      (∃ sr1 imm, i = .addImm dr sr1 imm ∧ a = s.reg sr1 ∧ b = sext imm)) →
    ∃ t, exec i s = .next t ∧
      (a.toNat + b.toNat < 65536 → (t.reg dr).toNat = a.toNat + b.toNat) ∧
      (65536 ≤ a.toNat + b.toNat → (t.reg dr).toNat = a.toNat + b.toNat - 65536) ∧
      FlagsOf (t.reg dr) t.cond ∧
      (a.toNat ≤ 0x7FFF → b.toNat ≤ 0x7FFF → 0x7FFF < a.toNat + b.toNat → t.cond = condN) ∧
      SameRegsBut dr s t ∧ t.pc = s.pc ∧ SameMemory s t ∧ SameKeyboard s t ∧ SameControl s t ∧ t.out = s.out

/-! ## Loads and stores -/

/-- What LD, LDI, LDR and LEA have in common (R130): DR is bits [11:9]; it receives the whole word read at the effective
address, a sum modulo 2^16, or for LEA that address; the flags are those of it; no other register, memory cell or PC
changes, and the keyboard only as the reads have it. -/
def Obligations.LoadsWriteDrAndTheFlags : Prop :=
  (∀ (dr : Reg) (off : BitVec 9) (s : State), ∃ t, exec (.ld dr off) s = .next t ∧
    t.reg dr = (memRead (s.pc + sext off) s).1 ∧ FlagsOf (t.reg dr) t.cond ∧ SameRegsBut dr s t ∧ t.pc = s.pc ∧
    SameMemory s t ∧ SameKeyboard (memRead (s.pc + sext off) s).2 t ∧ SameControl s t ∧ t.out = s.out) ∧
  (∀ (dr : Reg) (off : BitVec 9) (s : State), ∃ t, exec (.ldi dr off) s = .next t ∧
    t.reg dr = (memRead (memRead (s.pc + sext off) s).1 (memRead (s.pc + sext off) s).2).1 ∧
    SameKeyboard (memRead (memRead (s.pc + sext off) s).1 (memRead (s.pc + sext off) s).2).2 t ∧
    FlagsOf (t.reg dr) t.cond ∧ SameRegsBut dr s t ∧ t.pc = s.pc ∧ SameMemory s t ∧ SameControl s t ∧ t.out = s.out) ∧
  (∀ (dr base : Reg) (off : BitVec 6) (s : State), ∃ t, exec (.ldr dr base off) s = .next t ∧
    t.reg dr = (memRead (s.reg base + sext off) s).1 ∧ FlagsOf (t.reg dr) t.cond ∧ SameRegsBut dr s t ∧ t.pc = s.pc ∧
    SameMemory s t ∧ SameKeyboard (memRead (s.reg base + sext off) s).2 t ∧ SameControl s t ∧ t.out = s.out) ∧
  (∀ (dr : Reg) (off : BitVec 9) (s : State), ∃ t, exec (.lea dr off) s = .next t ∧
    t.reg dr = s.pc + sext off ∧ FlagsOf (t.reg dr) t.cond ∧ SameRegsBut dr s t ∧ t.pc = s.pc ∧
    SameMemory s t ∧ SameKeyboard s t ∧ SameControl s t ∧ t.out = s.out) ∧
  (∀ (w : Word) (dr : Reg), ((∃ off, decode w = .ld dr off) ∨ (∃ off, decode w = .ldi dr off) ∨
    (∃ base off, decode w = .ldr dr base off) ∨ (∃ off, decode w = .lea dr off)) →
    dr = regOfBits (w.extractLsb' 9 3))

/-- The LDI round trip (S7; R132): "storing address A at location L via a prior ST, then LDI through L, yields the value
stored at A". -/
def Obligations.LdiThroughAStoredAddressYieldsItsContent : Prop :=
  ∀ (s t : State) (sr dr : Reg) (off off' : BitVec 9), Memory.wf s.mem = true →
    isDevice (s.pc + sext off) = false → isDevice (s.reg sr) = false → s.reg sr ≠ s.pc + sext off →
    exec (.st sr off) s = .next t → ∀ pc', pc' + sext off' = s.pc + sext off →
    ∃ u, exec (.ldi dr off') (t.setPc pc') = .next u ∧ u.reg dr = s.cell (s.reg sr)

/-- What ST, STI and STR have in common (R140): SR is bits [11:9]; all 16 bits of it are written at the effective address,
modulo 2^16, if that is ordinary, and nothing is if it is 0xFE00 or 0xFE02; every other cell reads as before; no register,
flag or PC changes, no store faults, and the very next fetch from that address sees the word. -/
def Obligations.StoresWriteOneCellAndNothingElse : Prop :=
  (∀ (i : Instr) (sr : Reg) (a : Word) (m s : State), Memory.wf s.mem = true →
    ((∃ off, i = .st sr off ∧ a = s.pc + sext off ∧ m = s) ∨
      (∃ off, i = .sti sr off ∧ a = (memRead (s.pc + sext off) s).1 ∧ m = (memRead (s.pc + sext off) s).2) ∨
      (∃ base off, i = .str sr base off ∧ a = s.reg base + sext off ∧ m = s)) →
    ∃ t, exec i s = .next t ∧
      (a ≠ 0xFE00#16 → a ≠ 0xFE02#16 → t.cell a = s.reg sr ∧ (fetch (t.setPc a)).1 = s.reg sr) ∧
      (a = 0xFE00#16 ∨ a = 0xFE02#16 → SameMemory s t) ∧ SameMemoryBut a s t ∧
      SameRegs s t ∧ t.cond = s.cond ∧ t.pc = s.pc ∧ SameKeyboard m t ∧ SameControl s t ∧ t.out = s.out) ∧
  (∀ (w : Word) (sr : Reg), ((∃ off, decode w = .st sr off) ∨ (∃ off, decode w = .sti sr off) ∨
    (∃ base off, decode w = .str sr base off)) → sr = regOfBits (w.extractLsb' 9 3))

/-! ## Jumps -/

/-- JMP, JSR and JSRR (R150, R151, R152): where PC goes and what R7 receives; nothing else changes. BaseR's place is
decision D4 (log 1); JSRR R7 falls through by decision D6 (log 2). -/
def Obligations.JumpsSetPcAndCallsLinkInR7 : Prop :=
  (∀ (base : Reg) (s : State), ∃ t, exec (.jmp base) s = .next t ∧ t.pc = s.reg base ∧ SameRegs s t ∧
    t.cond = s.cond ∧ SameMemory s t ∧ SameKeyboard s t ∧ SameControl s t ∧ t.out = s.out) ∧
  (∀ (off : BitVec 11) (s : State), ∃ t, exec (.jsr off) s = .next t ∧ t.pc = s.pc + sext off ∧ t.reg .r7 = s.pc ∧
    SameRegsBut .r7 s t ∧ t.cond = s.cond ∧ SameMemory s t ∧ SameKeyboard s t ∧ SameControl s t ∧ t.out = s.out) ∧
  (∀ (base : Reg) (s : State), ∃ t, exec (.jsrr base) s = .next t ∧
    (base ≠ .r7 → t.pc = s.reg base) ∧ (base = .r7 → t.pc = s.pc) ∧ t.reg .r7 = s.pc ∧
    SameRegsBut .r7 s t ∧ t.cond = s.cond ∧ SameMemory s t ∧ SameKeyboard s t ∧ SameControl s t ∧ t.out = s.out)

/-! ## TRAP and the services (spec/45_trap.md) -/

/-- TRAP selects the service whose code its vector equals (R160), and with any other vector has no effect: R171's default
of the OPEN parameter UNKNOWN_TRAP, the model's choice (log 3). -/
def Obligations.TrapSelectsTheServiceOfItsVector : Prop :=
  ∀ s : State,
    exec (.trap 0x20#8) s = exec .getc s ∧ exec (.trap 0x21#8) s = exec .out s ∧
    exec (.trap 0x22#8) s = exec .puts s ∧ exec (.trap 0x23#8) s = exec .inp s ∧
    exec (.trap 0x24#8) s = exec .putsp s ∧ exec (.trap 0x25#8) s = exec .halt s ∧
    ∀ v : BitVec 8, (v.toNat < 0x20 ∨ 0x25 < v.toNat) → exec (.trap v) s = .next s

/-- What TRAP does not do (R161, decision D7): no service changes PC, COND, R1 to R7 or a cell of memory, and only GETC and
IN write R0. -/
def Obligations.ServicesWriteNoRegisterButR0 : Prop :=
  ∀ (i : Instr) (s t : State),
    (i = .getc ∨ i = .out ∨ i = .puts ∨ i = .inp ∨ i = .putsp ∨ i = .halt ∨ ∃ v, i = .trap v) → exec i s = .next t →
    t.pc = s.pc ∧ t.cond = s.cond ∧ SameRegsBut .r0 s t ∧ SameMemory s t ∧
    (i = .out ∨ i = .puts ∨ i = .putsp ∨ i = .halt → SameRegs s t)

/-- GETC (R164): the first character of the input, pending or the next to arrive, is in R0 zero-extended; no echo; COND
unchanged. That the registers at 0xFE00 and 0xFE02 share this input is decision D30 (log 6). -/
def Obligations.GetcGivesTheNextCharacterUnechoed : Prop :=
  ∀ (s : State) (c : Byte) (rest : List Byte), s.inputToCome = c :: rest → ∃ t, exec .getc s = .next t ∧
    (t.reg .r0).toNat = c.toNat ∧ SameRegsBut .r0 s t ∧ t.inputToCome = rest ∧ t.kbChar = c ∧ t.out = s.out ∧
    t.cond = s.cond ∧ t.pc = s.pc ∧ SameMemory s t ∧ t.engine = s.engine ∧ t.waiting = none

/-- IN (R167): the prompt, a free value (log 4), then the next character, echoed and in R0. -/
def Obligations.InPromptsEchoesAndGivesTheNextCharacter : Prop :=
  ∀ (s : State) (c : Byte) (rest : List Byte), s.inputToCome = c :: rest → ∃ t, exec .inp s = .next t ∧
    (t.reg .r0).toNat = c.toNat ∧ SameRegsBut .r0 s t ∧ t.inputToCome = rest ∧ t.kbChar = c ∧
    t.out = s.out ++ Config.inPrompt ++ [c] ∧ t.cond = s.cond ∧ t.pc = s.pc ∧ SameMemory s t ∧
    t.engine = s.engine ∧ t.waiting = none

/-- GETC and IN with no character pending and none to come (R163): the service waits, after IN's prompt, and no register,
flag, cell or PC changes; and so does each further step of it. That the open step is a state of the model is log 8. -/
def Obligations.ServicesWaitWhileNoCharacterComes : Prop :=
  ∀ s : State, s.inputToCome = [] →
    exec .getc s = .next { s with kbq := [], arrivals := [], waiting := some .getc } ∧
    exec .inp s =
      .next { s with kbq := [], arrivals := [], waiting := some .inp, out := s.out ++ Config.inPrompt } ∧
    ∀ w, s.engine = .running → s.waiting = some w → step s = .next { s with kbq := [], arrivals := [] }

/-- A character that arrives while GETC or IN waits ends the wait with the result it would have had if it had been pending
(R163, R210): "the service completes and execution continues with all state intact". The state that waits is the model's
(log 8), and so is what the driver knows of its image (log 16). -/
def Obligations.ArrivalEndsTheWaitAsIfPending : Prop :=
  ∀ (s : State) (c : Byte) (i : Instr), (i = .getc ∨ i = .inp) → s.kbq = [] → s.arrivals = [] →
    s.engine = .running → s.waiting = none →
    ∃ t t' u, exec i s = .next t ∧ t.waiting ≠ none ∧
      (∀ image, Driver.apply (.typeChar c) ⟨t, image⟩ = some ⟨t', image⟩) ∧ step t' = .next u ∧
      exec i { s with kbq := [c] } = .next u

/-- OUT (R165): the low byte of R0 is appended to the output; nothing else changes. -/
def Obligations.OutAppendsTheLowByteOfR0 : Prop :=
  ∀ s : State, ∃ t b, exec .out s = .next t ∧ t.out = s.out ++ [b] ∧ b.toNat = (s.reg .r0).toNat % 256 ∧
    SameRegs s t ∧ t.cond = s.cond ∧ t.pc = s.pc ∧ SameMemory s t ∧ SameKeyboard s t ∧ SameControl s t

/-- PUTS (R166) on n words that are not zero and then a zero word. First clause: whatever the addresses, 0xFE00 and 0xFE02
among them, the words being those that `MemRead` gives one after the other, with the keyboard as these reads leave it (R69,
decision D15, log 27). Second clause: at ordinary addresses, the words being the cells. Both go around the top of the
address space (decision D27, log 27); R0 and everything else is unchanged. -/
def Obligations.PutsWritesTheLowBytesUpToAZeroWord : Prop :=
  (∀ (s u t : State) (n : Nat) (ws : List Word),
    readsFrom n (s.reg .r0) s = (ws, u) → (∀ w ∈ ws, w ≠ 0x0000#16) →
    memRead (s.reg .r0 + BitVec.ofNat 16 n) u = (0x0000#16, t) →
    exec .puts s = .next { t with out := s.out ++ ws.map fun w => w.extractLsb' 0 8 }) ∧
  (∀ (s : State) (n : Nat),
    (∀ k, k ≤ n → isDevice (s.reg .r0 + BitVec.ofNat 16 k) = false) →
    (∀ k, k < n → s.cell (s.reg .r0 + BitVec.ofNat 16 k) ≠ 0x0000#16) →
    s.cell (s.reg .r0 + BitVec.ofNat 16 n) = 0x0000#16 →
    exec .puts s = .next { s with
      out := s.out ++ (List.range n).map fun k => (s.cell (s.reg .r0 + BitVec.ofNat 16 k)).extractLsb' 0 8 })

/-- PUTSP (R169) on n words with two characters each and then a word that ends the string: low byte, then high byte of each;
a last word with a zero low byte writes nothing, one with only a zero high byte writes its low byte. First clause: whatever
the addresses, as for PUTS (R69, decision D15, log 27). Second clause: at ordinary addresses. The addresses wrap (decision
D27, log 27). -/
def Obligations.PutspWritesTwoBytesAWordUpToAZeroByte : Prop :=
  (∀ (s u t : State) (n : Nat) (ws : List Word) (last : Word),
    readsFrom n (s.reg .r0) s = (ws, u) →
    (∀ w ∈ ws, w.extractLsb' 0 8 ≠ 0x00#8 ∧ w.extractLsb' 8 8 ≠ 0x00#8) →
    memRead (s.reg .r0 + BitVec.ofNat 16 n) u = (last, t) →
    let written := s.out ++ ws.flatMap fun w => [w.extractLsb' 0 8, w.extractLsb' 8 8]
    (last.extractLsb' 0 8 = 0x00#8 → exec .putsp s = .next { t with out := written }) ∧
    (last.extractLsb' 0 8 ≠ 0x00#8 → last.extractLsb' 8 8 = 0x00#8 →
      exec .putsp s = .next { t with out := written ++ [last.extractLsb' 0 8] })) ∧
  (∀ (s : State) (n : Nat),
    (∀ k, k ≤ n → isDevice (s.reg .r0 + BitVec.ofNat 16 k) = false) →
    (∀ k, k < n → (s.cell (s.reg .r0 + BitVec.ofNat 16 k)).extractLsb' 0 8 ≠ 0x00#8 ∧
      (s.cell (s.reg .r0 + BitVec.ofNat 16 k)).extractLsb' 8 8 ≠ 0x00#8) →
    let last := s.cell (s.reg .r0 + BitVec.ofNat 16 n)
    let written := s.out ++ (List.range n).flatMap fun k =>
      [(s.cell (s.reg .r0 + BitVec.ofNat 16 k)).extractLsb' 0 8, (s.cell (s.reg .r0 + BitVec.ofNat 16 k)).extractLsb' 8 8]
    (last.extractLsb' 0 8 = 0x00#8 → exec .putsp s = .next { s with out := written }) ∧
    (last.extractLsb' 0 8 ≠ 0x00#8 → last.extractLsb' 8 8 = 0x00#8 →
      exec .putsp s = .next { s with out := written ++ [last.extractLsb' 0 8] }))

/-- HALT (R170; PC by decision D9, log 13): the engine is Halted and nothing else changes, PC keeping the post-increment
value, and nothing is written to the output. -/
def Obligations.HaltChangesTheEngineStateOnly : Prop :=
  ∀ s : State, ∃ t, exec .halt s = .next t ∧ t.engine = .halted ∧ t.pc = s.pc ∧ SameRegs s t ∧ t.cond = s.cond ∧
    SameMemory s t ∧ SameKeyboard s t ∧ t.waiting = s.waiting ∧ t.out = s.out

/-! ## RTI and RES (spec/46_reserved.md) -/

/-- RTI and RES take the fault (R180, R181, R192): the record is the instruction's own address and its opcode, 8 or 13 by the
numbering of decision D1 (log 1); PC keeps the post-increment value (D9, log 13); nothing else changes. -/
def Obligations.RtiAndResTakeTheFault : Prop :=
  ∀ (i : Instr) (op : BitVec 4) (s : State), (i = .rti ∧ op = 8#4) ∨ (i = .res ∧ op = 13#4) →
    ∃ t, exec i s = .next t ∧ (∀ a, s.pc = a + 1#16 → t.engine = .faulted (.illegalOpcode a op)) ∧ ¬ t.safe ∧
      t.pc = s.pc ∧ SameRegs s t ∧ t.cond = s.cond ∧ SameMemory s t ∧ SameKeyboard s t ∧ t.waiting = s.waiting ∧
      t.out = s.out

/-! ## Registers, over all instructions -/

/-- The table of R38: no register changes but the one the table lists as written, and a register the table does not list
as read influences nothing: with another value in it, the instruction does the same to everything else, and leaves in the
register what it wrote there, or, where it writes no value there, the other value: because the table has it write none, or
because the service waits still. That a service that waits is a state is the model's (log 8), and so is that an unlisted
TRAP touches nothing (log 3) and that JSRR R7 reads nothing old (decision D6, log 2). -/
def Obligations.RegistersReadAndWrittenAreThoseOfTheTable : Prop :=
  ∀ (i : Instr) (s t : State), i.wf = true → s.waiting = none → exec i s = .next t →
    (∀ r, regWritten i ≠ some r → t.reg r = s.reg r) ∧
    (∀ r v, r ∉ regsRead i → ∃ t', exec i (s.setReg r v) = .next t' ∧ t'.setReg r 0#16 = t.setReg r 0#16 ∧
      (regWritten i = some r → t.waiting = none → t'.reg r = t.reg r) ∧
      (regWritten i ≠ some r ∨ t.waiting ≠ none → t'.reg r = v))

/-! ## The loader, the boot and the run/stop control (spec/70_reset_and_hazards.md, spec/60_exceptions.md) -/

/-- The loader's algorithm (R225): without a source Unreadable, without a whole origin Truncated; else the words up to the
end of the source or of the address space, each at its address (but for the two device addresses, which keep nothing),
and every other cell as it was. -/
def Obligations.LoaderStoresTheImageFromItsOrigin : Prop :=
  (∀ s : State, loadImage none s = .failed .unreadable) ∧
  (∀ (bytes : List Byte) (s : State), bytes.length < 2 → loadImage (some bytes) s = .failed .truncated) ∧
  (∀ (b0 b1 : Byte) (body : List Byte) (s : State), Memory.wf s.mem = true →
    ∃ t, loadImage (some (b0 :: b1 :: body)) s = .loaded t ∧
      let origin := b0.toNat * 256 + b1.toNat
      let n := min (body.length / 2) (65536 - origin)
      (∀ k, k < n → isDevice (BitVec.ofNat 16 (origin + k)) = false →
        (t.cell (BitVec.ofNat 16 (origin + k))).toNat =
          ((body[2 * k]?).getD 0#8).toNat * 256 + ((body[2 * k + 1]?).getD 0#8).toNat) ∧
      (∀ a : Word, (a.toNat < origin ∨ origin + n ≤ a.toNat ∨ isDevice a = true) → t.cell a = s.cell a))

/-- The loader's errors, and what it leaves alone (R229): a load fails exactly without a source or without a whole origin,
a short or empty body being no error; it touches no register, flag or anything but memory; the origin is to be read from
the image. -/
def Obligations.LoaderTouchesMemoryOnly : Prop :=
  (∀ s : State, loadImage none s = .failed .unreadable) ∧
  (∀ (bytes : List Byte) (s : State), loadImage (some bytes) s = .failed .truncated ↔ bytes.length < 2) ∧
  (∀ (bytes : List Byte) (s : State), loadImage (some bytes) s ≠ .failed .unreadable) ∧
  (∀ (source : Option (List Byte)) (s t : State), loadImage source s = .loaded t →
    SameRegs s t ∧ t.pc = s.pc ∧ t.cond = s.cond ∧ SameKeyboard s t ∧ SameControl s t ∧ t.out = s.out) ∧
  (∀ (b0 b1 : Byte) (body : List Byte), ∃ origin, imageOrigin (b0 :: b1 :: body) = some origin ∧
    origin.toNat = b0.toNat * 256 + b1.toNat)

/-- Limits of the load (R228): a trailing odd byte is ignored, and so is every word past the end of the address space. -/
def Obligations.LoaderIgnoresAnOddByteAndWordsPastTheEnd : Prop :=
  (∀ (b0 b1 b : Byte) (body : List Byte) (s : State), body.length % 2 = 0 →
    loadImage (some (b0 :: b1 :: (body ++ [b]))) s = loadImage (some (b0 :: b1 :: body)) s) ∧
  (∀ (b0 b1 : Byte) (body extra : List Byte) (s : State), body.length = 2 * (65536 - (b0.toNat * 256 + b1.toNat)) →
    loadImage (some (b0 :: b1 :: (body ++ extra))) s = loadImage (some (b0 :: b1 :: body)) s)

/-- After a boot (R223, R230; S8) the first fetch yields the image's first word, PC being the origin (START_PC's default,
decision D11), the engine Ready and every register and COND as after reset. -/
def Obligations.BootedImageIsFetchedFromItsOrigin : Prop :=
  ∀ (b0 b1 hi lo : Byte) (rest : List Byte), isDevice (b0 ++ b1) = false →
    ∃ s, Driver.boot (b0 :: b1 :: hi :: lo :: rest) none = some s ∧ s.pc = b0 ++ b1 ∧ (fetch s).1 = hi ++ lo ∧
      s.engine = .ready ∧ s.cond = 0b000#3 ∧ SameRegs State.reset s ∧ s.Inv

/-- Run/stop (R202, decision D19): false changes nothing between steps; a run that is stopped after m samples and resumed
for n more is the run of m + n; and a terminal state ends the loop. -/
def Obligations.StoppingLosesNothing : Prop :=
  (∀ (s : State) (later : List Bool), s.betweenSteps = true → Driver.drive (false :: later) s = .next s) ∧
  (∀ (m n : Nat) (s t : State), Driver.drive (List.replicate m true) s = .next t →
    Driver.drive (List.replicate (m + n) true) s = Driver.drive (List.replicate n true) t) ∧
  (∀ (s : State) (runs : List Bool), s.engine.isTerminal = true → Driver.drive runs s = .next s)

/-- The load of R213: "after reset, before the first step, once"; a second one, and one after the first step, are refused
(spec/93_implementation_defined.md U17). Where it is allowed, the session takes what the loader reports, a failed load
leaving the machine as it was; after a failed load no step is allowed (R211) until a reset. That the driver keeps what
became of the load is log 16. -/
def Obligations.AnImageIsLoadedOnceBeforeTheFirstStep : Prop :=
  (∀ (source : Option (List Byte)) (d : Driver.Session), d.machine.engine ≠ .ready ∨ d.image ≠ .notYet →
    Driver.apply (.load source) d = none) ∧
  (∀ (source : Option (List Byte)) (s : State), s.engine = .ready →
    (∀ t, loadImage source s = .loaded t → Driver.apply (.load source) ⟨s, .notYet⟩ = some ⟨t, .loaded⟩) ∧
    (∀ e, loadImage source s = .failed e → Driver.apply (.load source) ⟨s, .notYet⟩ = some ⟨s, .failed e⟩)) ∧
  (∀ (s : State) (e : ImageError), Driver.apply .step ⟨s, .failed e⟩ = none) ∧
  (∀ (m : Driver.Move) (d d' : Driver.Session), m ≠ .reset → d.image ≠ .notYet → Driver.apply m d = some d' →
    d'.image = d.image) ∧
  (∀ d : Driver.Session, Driver.apply .reset d = some ⟨State.reset, .notYet⟩)

/-- Every move of the outside world (R213) keeps the invariant of the machine, from every session that meets it, whether a
run reaches it or not; and a new run meets it. The guards of the moves are log 21, and what the driver keeps of its image
is log 16. -/
def Obligations.EveryMoveKeepsTheInvariant : Prop :=
  Driver.Session.start.machine.Inv ∧
  ∀ (m : Driver.Move) (d d' : Driver.Session), d.machine.Inv → Driver.apply m d = some d' → d'.machine.Inv
end

