-- ==== Sys2Proof/Laws/Driver.lean ====
section
/-! SUPPORT. What a move of the outside world can do, said once (spec/60_exceptions.md R213). -/

namespace Sys2Proof.Machine

open Sys2Proof

@[simp] theorem Driver.Session.start_machine : Driver.Session.start.machine = State.reset := rfl
@[simp] theorem Driver.Session.start_image : Driver.Session.start.image = .notYet := rfl
@[simp] theorem Driver.Session.withLoad_loaded (d : Driver.Session) (t : State) :
    d.withLoad (.loaded t) = ⟨t, .loaded⟩ := rfl
@[simp] theorem Driver.Session.withLoad_failed (d : Driver.Session) (e : ImageError) :
    d.withLoad (.failed e) = { d with image := .failed e } := rfl

/-- A move that is allowed is one of these, with its guard and its whole effect. -/
theorem Driver.apply_cases {m : Driver.Move} {d d' : Driver.Session} (h : Driver.apply m d = some d') :
    (m = .reset ∧ d' = .start) ∨
    (∃ source, m = .load source ∧ d.machine.engine = .ready ∧ d.image = .notYet ∧
      d' = d.withLoad (loadImage source d.machine)) ∨
    (∃ v, m = .setPc v ∧ d.machine.engine = .ready ∧ d' = { d with machine := d.machine.setPc v }) ∨
    (∃ r v, m = .presetReg r v ∧ d.machine.betweenSteps = true ∧ d' = { d with machine := d.machine.setReg r v }) ∨
    (∃ a v, m = .presetCell a v ∧ d.machine.betweenSteps = true ∧ isDevice a = false ∧
      d' = { d with machine := d.machine.setCell a v }) ∨
    (∃ c, m = .typeChar c ∧ d' = { d with machine := { d.machine with kbq := d.machine.kbq ++ [c] } }) ∨
    (∃ later, m = .schedule later ∧
      d' = { d with machine := { d.machine with arrivals := d.machine.arrivals ++ later } }) ∨
    (∃ t, m = .step ∧ d.mayStep = true ∧ Sys2Proof.Machine.step d.machine = .next t ∧ d' = { d with machine := t }) := by
  cases m with
  | reset => exact .inl ⟨rfl, by simpa [Driver.apply] using h.symm⟩
  | load source =>
    simp only [Driver.apply, Option.ite_none_right_eq_some, Option.some.injEq] at h
    exact .inr (.inl ⟨source, rfl, h.1.1, h.1.2, h.2.symm⟩)
  | setPc v =>
    simp only [Driver.apply, Option.ite_none_right_eq_some, Option.some.injEq] at h
    exact .inr (.inr (.inl ⟨v, rfl, h.1, h.2.symm⟩))
  | presetReg r v =>
    simp only [Driver.apply, Option.ite_none_right_eq_some, Option.some.injEq] at h
    exact .inr (.inr (.inr (.inl ⟨r, v, rfl, h.1, h.2.symm⟩)))
  | presetCell a v =>
    simp only [Driver.apply, Option.ite_none_right_eq_some, Option.some.injEq, Bool.and_eq_true, Bool.not_eq_true'] at h
    exact .inr (.inr (.inr (.inr (.inl ⟨a, v, rfl, h.1.1, h.1.2, h.2.symm⟩))))
  | typeChar c =>
    exact .inr (.inr (.inr (.inr (.inr (.inl ⟨c, rfl, (Option.some.inj h).symm⟩)))))
  | schedule later =>
    exact .inr (.inr (.inr (.inr (.inr (.inr (.inl ⟨later, rfl, (Option.some.inj h).symm⟩))))))
  | step =>
    simp only [Driver.apply, Option.ite_none_right_eq_some] at h
    obtain ⟨hs, h⟩ := h
    cases e : Sys2Proof.Machine.step d.machine with
    | next t =>
      rw [e] at h
      exact .inr (.inr (.inr (.inr (.inr (.inr (.inr ⟨t, rfl, hs, rfl, (Option.some.inj h).symm⟩))))))
    | fault f => rw [e] at h; cases h
    | refused r => rw [e] at h; cases h

end Sys2Proof.Machine
end

