-- ==== Sys2Proof/Laws/State.lean ====
section
/-! SUPPORT. One lemma per field per update of the state, and what a register, a cell and the flags read after each. -/

namespace Sys2Proof.Machine

open Sys2Proof

/-! ### `setReg` -/

@[simp] theorem State.setReg_regs (s : State) (r : Reg) (v : Word) : (s.setReg r v).regs = s.regs.set r v := rfl
@[simp] theorem State.setReg_pc (s : State) (r : Reg) (v : Word) : (s.setReg r v).pc = s.pc := rfl
@[simp] theorem State.setReg_cond (s : State) (r : Reg) (v : Word) : (s.setReg r v).cond = s.cond := rfl
@[simp] theorem State.setReg_engine (s : State) (r : Reg) (v : Word) : (s.setReg r v).engine = s.engine := rfl
@[simp] theorem State.setReg_mem (s : State) (r : Reg) (v : Word) : (s.setReg r v).mem = s.mem := rfl
@[simp] theorem State.setReg_kbq (s : State) (r : Reg) (v : Word) : (s.setReg r v).kbq = s.kbq := rfl
@[simp] theorem State.setReg_kbChar (s : State) (r : Reg) (v : Word) : (s.setReg r v).kbChar = s.kbChar := rfl
@[simp] theorem State.setReg_out (s : State) (r : Reg) (v : Word) : (s.setReg r v).out = s.out := rfl
@[simp] theorem State.setReg_waiting (s : State) (r : Reg) (v : Word) : (s.setReg r v).waiting = s.waiting := rfl
@[simp] theorem State.setReg_arrivals (s : State) (r : Reg) (v : Word) : (s.setReg r v).arrivals = s.arrivals := rfl

/-! ### `setPc` -/

@[simp] theorem State.setPc_regs (s : State) (v : Word) : (s.setPc v).regs = s.regs := rfl
@[simp] theorem State.setPc_pc (s : State) (v : Word) : (s.setPc v).pc = v := rfl
@[simp] theorem State.setPc_cond (s : State) (v : Word) : (s.setPc v).cond = s.cond := rfl
@[simp] theorem State.setPc_engine (s : State) (v : Word) : (s.setPc v).engine = s.engine := rfl
@[simp] theorem State.setPc_mem (s : State) (v : Word) : (s.setPc v).mem = s.mem := rfl
@[simp] theorem State.setPc_kbq (s : State) (v : Word) : (s.setPc v).kbq = s.kbq := rfl
@[simp] theorem State.setPc_kbChar (s : State) (v : Word) : (s.setPc v).kbChar = s.kbChar := rfl
@[simp] theorem State.setPc_out (s : State) (v : Word) : (s.setPc v).out = s.out := rfl
@[simp] theorem State.setPc_waiting (s : State) (v : Word) : (s.setPc v).waiting = s.waiting := rfl
@[simp] theorem State.setPc_arrivals (s : State) (v : Word) : (s.setPc v).arrivals = s.arrivals := rfl

/-! ### `setEngine` -/

@[simp] theorem State.setEngine_regs (s : State) (e : Engine) : (s.setEngine e).regs = s.regs := rfl
@[simp] theorem State.setEngine_pc (s : State) (e : Engine) : (s.setEngine e).pc = s.pc := rfl
@[simp] theorem State.setEngine_cond (s : State) (e : Engine) : (s.setEngine e).cond = s.cond := rfl
@[simp] theorem State.setEngine_engine (s : State) (e : Engine) : (s.setEngine e).engine = e := rfl
@[simp] theorem State.setEngine_mem (s : State) (e : Engine) : (s.setEngine e).mem = s.mem := rfl
@[simp] theorem State.setEngine_kbq (s : State) (e : Engine) : (s.setEngine e).kbq = s.kbq := rfl
@[simp] theorem State.setEngine_kbChar (s : State) (e : Engine) : (s.setEngine e).kbChar = s.kbChar := rfl
@[simp] theorem State.setEngine_out (s : State) (e : Engine) : (s.setEngine e).out = s.out := rfl
@[simp] theorem State.setEngine_waiting (s : State) (e : Engine) : (s.setEngine e).waiting = s.waiting := rfl
@[simp] theorem State.setEngine_arrivals (s : State) (e : Engine) : (s.setEngine e).arrivals = s.arrivals := rfl

/-! ### `setCell` -/

@[simp] theorem State.setCell_regs (s : State) (a v : Word) : (s.setCell a v).regs = s.regs := rfl
@[simp] theorem State.setCell_pc (s : State) (a v : Word) : (s.setCell a v).pc = s.pc := rfl
@[simp] theorem State.setCell_cond (s : State) (a v : Word) : (s.setCell a v).cond = s.cond := rfl
@[simp] theorem State.setCell_engine (s : State) (a v : Word) : (s.setCell a v).engine = s.engine := rfl
@[simp] theorem State.setCell_mem (s : State) (a v : Word) : (s.setCell a v).mem = writeCells s.mem a.toNat v := rfl
@[simp] theorem State.setCell_kbq (s : State) (a v : Word) : (s.setCell a v).kbq = s.kbq := rfl
@[simp] theorem State.setCell_kbChar (s : State) (a v : Word) : (s.setCell a v).kbChar = s.kbChar := rfl
@[simp] theorem State.setCell_out (s : State) (a v : Word) : (s.setCell a v).out = s.out := rfl
@[simp] theorem State.setCell_waiting (s : State) (a v : Word) : (s.setCell a v).waiting = s.waiting := rfl
@[simp] theorem State.setCell_arrivals (s : State) (a v : Word) : (s.setCell a v).arrivals = s.arrivals := rfl

/-! ### `setcc` -/

@[simp] theorem State.setcc_regs (s : State) (r : Reg) : (s.setcc r).regs = s.regs := rfl
@[simp] theorem State.setcc_pc (s : State) (r : Reg) : (s.setcc r).pc = s.pc := rfl
@[simp] theorem State.setcc_cond (s : State) (r : Reg) : (s.setcc r).cond = condOf (s.reg r) := rfl
@[simp] theorem State.setcc_engine (s : State) (r : Reg) : (s.setcc r).engine = s.engine := rfl
@[simp] theorem State.setcc_mem (s : State) (r : Reg) : (s.setcc r).mem = s.mem := rfl
@[simp] theorem State.setcc_kbq (s : State) (r : Reg) : (s.setcc r).kbq = s.kbq := rfl
@[simp] theorem State.setcc_kbChar (s : State) (r : Reg) : (s.setcc r).kbChar = s.kbChar := rfl
@[simp] theorem State.setcc_out (s : State) (r : Reg) : (s.setcc r).out = s.out := rfl
@[simp] theorem State.setcc_waiting (s : State) (r : Reg) : (s.setcc r).waiting = s.waiting := rfl
@[simp] theorem State.setcc_arrivals (s : State) (r : Reg) : (s.setcc r).arrivals = s.arrivals := rfl

/-! ### `outByte` -/

@[simp] theorem outByte_regs (s : State) (b : Byte) : (outByte b s).regs = s.regs := rfl
@[simp] theorem outByte_pc (s : State) (b : Byte) : (outByte b s).pc = s.pc := rfl
@[simp] theorem outByte_cond (s : State) (b : Byte) : (outByte b s).cond = s.cond := rfl
@[simp] theorem outByte_engine (s : State) (b : Byte) : (outByte b s).engine = s.engine := rfl
@[simp] theorem outByte_mem (s : State) (b : Byte) : (outByte b s).mem = s.mem := rfl
@[simp] theorem outByte_kbq (s : State) (b : Byte) : (outByte b s).kbq = s.kbq := rfl
@[simp] theorem outByte_kbChar (s : State) (b : Byte) : (outByte b s).kbChar = s.kbChar := rfl
@[simp] theorem outByte_out (s : State) (b : Byte) : (outByte b s).out = s.out ++ [b] := rfl
@[simp] theorem outByte_waiting (s : State) (b : Byte) : (outByte b s).waiting = s.waiting := rfl
@[simp] theorem outByte_arrivals (s : State) (b : Byte) : (outByte b s).arrivals = s.arrivals := rfl

/-! ### `setRegCC`: the register, then the flags -/

@[simp] theorem State.setRegCC_regs (s : State) (r : Reg) (v : Word) : (s.setRegCC r v).regs = s.regs.set r v := rfl
@[simp] theorem State.setRegCC_pc (s : State) (r : Reg) (v : Word) : (s.setRegCC r v).pc = s.pc := rfl
@[simp] theorem State.setRegCC_engine (s : State) (r : Reg) (v : Word) : (s.setRegCC r v).engine = s.engine := rfl
@[simp] theorem State.setRegCC_mem (s : State) (r : Reg) (v : Word) : (s.setRegCC r v).mem = s.mem := rfl
@[simp] theorem State.setRegCC_kbq (s : State) (r : Reg) (v : Word) : (s.setRegCC r v).kbq = s.kbq := rfl
@[simp] theorem State.setRegCC_kbChar (s : State) (r : Reg) (v : Word) : (s.setRegCC r v).kbChar = s.kbChar := rfl
@[simp] theorem State.setRegCC_out (s : State) (r : Reg) (v : Word) : (s.setRegCC r v).out = s.out := rfl
@[simp] theorem State.setRegCC_waiting (s : State) (r : Reg) (v : Word) : (s.setRegCC r v).waiting = s.waiting := rfl
@[simp] theorem State.setRegCC_arrivals (s : State) (r : Reg) (v : Word) : (s.setRegCC r v).arrivals = s.arrivals := rfl

/-! ### Reading a register after an update -/

@[simp] theorem State.setReg_reg_same (s : State) (r : Reg) (v : Word) : (s.setReg r v).reg r = v := by
  cases r <;> rfl

@[simp] theorem State.setReg_reg_ne (s : State) {r r' : Reg} (h : r' ≠ r) (v : Word) :
    (s.setReg r v).reg r' = s.reg r' := by
  cases r <;> cases r' <;> first | rfl | exact absurd rfl h

@[simp] theorem State.setPc_reg (s : State) (v : Word) (r : Reg) : (s.setPc v).reg r = s.reg r := by cases r <;> rfl
@[simp] theorem State.setEngine_reg (s : State) (e : Engine) (r : Reg) : (s.setEngine e).reg r = s.reg r := by cases r <;> rfl
@[simp] theorem State.setCell_reg (s : State) (a v : Word) (r : Reg) : (s.setCell a v).reg r = s.reg r := by cases r <;> rfl
@[simp] theorem State.setcc_reg (s : State) (r' r : Reg) : (s.setcc r').reg r = s.reg r := by cases r <;> rfl
@[simp] theorem outByte_reg (s : State) (b : Byte) (r : Reg) : (outByte b s).reg r = s.reg r := by cases r <;> rfl

@[simp] theorem State.setRegCC_reg_same (s : State) (r : Reg) (v : Word) : (s.setRegCC r v).reg r = v := by
  simp [State.setRegCC]

@[simp] theorem State.setRegCC_reg_ne (s : State) {r r' : Reg} (h : r' ≠ r) (v : Word) :
    (s.setRegCC r v).reg r' = s.reg r' := by
  simp [State.setRegCC, h]

@[simp] theorem State.setRegCC_cond (s : State) (r : Reg) (v : Word) : (s.setRegCC r v).cond = condOf v := by
  simp [State.setRegCC]

/-- Two states agree on the registers when they agree on each (a register number always names the same storage, R20). -/
theorem regs_ext {g h : State} (e : ∀ r, g.reg r = h.reg r) : g.regs = h.regs := by
  obtain ⟨⟨_, _, _, _, _, _, _, _⟩, _, _, _, _, _, _, _, _, _⟩ := g
  obtain ⟨⟨_, _, _, _, _, _, _, _⟩, _, _, _, _, _, _, _, _, _⟩ := h
  have := e .r0; have := e .r1; have := e .r2; have := e .r3
  have := e .r4; have := e .r5; have := e .r6; have := e .r7
  simp_all [State.reg]

/-! ### Reading a cell after an update of something else -/

@[simp] theorem State.setReg_cell (s : State) (r : Reg) (v a : Word) : (s.setReg r v).cell a = s.cell a := rfl
@[simp] theorem State.setPc_cell (s : State) (v a : Word) : (s.setPc v).cell a = s.cell a := rfl
@[simp] theorem State.setEngine_cell (s : State) (e : Engine) (a : Word) : (s.setEngine e).cell a = s.cell a := rfl
@[simp] theorem State.setcc_cell (s : State) (r : Reg) (a : Word) : (s.setcc r).cell a = s.cell a := rfl
@[simp] theorem State.setRegCC_cell (s : State) (r : Reg) (v a : Word) : (s.setRegCC r v).cell a = s.cell a := rfl
@[simp] theorem outByte_cell (s : State) (b : Byte) (a : Word) : (outByte b s).cell a = s.cell a := rfl

end Sys2Proof.Machine
end

