-- ==== Sys2Proof/Laws/Memory.lean ====
section
/-! SUPPORT. The memory array: a read after a write, the canonical form and that every operation keeps it. -/

namespace Sys2Proof.Machine

open Sys2Proof

/-! ### The list of cells -/

theorem wfCellsFrom_mono {lo lo' : Nat} (h : lo' ≤ lo) {m : List Cell} (w : wfCellsFrom lo m = true) :
    wfCellsFrom lo' m = true := by
  cases m with
  | nil => rfl
  | cons c rest =>
    obtain ⟨k, v⟩ := c
    simp only [wfCellsFrom, Bool.and_eq_true, decide_eq_true_eq] at w ⊢
    exact ⟨⟨⟨by omega, w.1.1.2⟩, w.1.2⟩, w.2⟩

/-- An address below all listed ones reads as unlisted. -/
theorem readCells_below {lo : Nat} {m : List Cell} (w : wfCellsFrom lo m = true) {a : Nat} (h : a < lo) :
    readCells m a = unlisted := by
  induction m generalizing lo with
  | nil => rfl
  | cons c rest ih =>
    obtain ⟨k, v⟩ := c
    simp only [wfCellsFrom, Bool.and_eq_true, decide_eq_true_eq] at w
    have : k ≠ a := by omega
    simp only [readCells, this, if_false]
    exact ih w.2 (by omega)

/-- A write reads back. -/
theorem readCells_writeCells_same {lo : Nat} {m : List Cell} (w : wfCellsFrom lo m = true) (a : Nat) (v : Word) :
    readCells (writeCells m a v) a = v := by
  induction m generalizing lo with
  | nil => by_cases h : v = unlisted <;> simp [writeCells, readCells, h]
  | cons c rest ih =>
    obtain ⟨k, u⟩ := c
    have w' := w
    simp only [wfCellsFrom, Bool.and_eq_true, decide_eq_true_eq] at w
    simp only [writeCells]
    by_cases h1 : a < k
    · by_cases h : v = unlisted
      · have h2 : k ≠ a := by omega
        simp only [h1, h, if_true, readCells, h2, if_false]
        exact readCells_below w.2 (by omega)
      · simp [h1, h, readCells]
    · by_cases h2 : a = k
      · by_cases h : v = unlisted
        · simp only [h2, h, if_true]
          simpa using readCells_below w.2 (a := k) (by omega)
        · simp [h2, h, readCells]
      · have h3 : k ≠ a := fun e => h2 e.symm
        simp only [h1, h2, h3, if_false, readCells]
        exact ih w.2

/-- A write leaves every other address alone. -/
theorem readCells_writeCells_ne (m : List Cell) {a b : Nat} (h : b ≠ a) (v : Word) :
    readCells (writeCells m a v) b = readCells m b := by
  have hab : a ≠ b := fun e => h e.symm
  induction m with
  | nil => by_cases hv : v = unlisted <;> simp [writeCells, readCells, hv, hab]
  | cons c rest ih =>
    obtain ⟨k, u⟩ := c
    simp only [writeCells]
    by_cases h1 : a < k
    · by_cases hv : v = unlisted <;> simp [h1, hv, readCells, hab]
    · by_cases h2 : a = k
      · subst h2
        by_cases hv : v = unlisted <;> simp [hv, readCells, hab]
      · simp only [h1, h2, if_false, readCells, ih]

/-- A write keeps the canonical form. -/
theorem wfCellsFrom_writeCells {lo : Nat} {m : List Cell} (w : wfCellsFrom lo m = true) {a : Nat} (hlo : lo ≤ a)
    (ha : a < 65536) (v : Word) : wfCellsFrom lo (writeCells m a v) = true := by
  induction m generalizing lo with
  | nil =>
    by_cases hv : v = unlisted <;> simp [writeCells, wfCellsFrom, hv, hlo, ha]
  | cons c rest ih =>
    obtain ⟨k, u⟩ := c
    have w' := w
    simp only [wfCellsFrom, Bool.and_eq_true, decide_eq_true_eq] at w
    simp only [writeCells]
    by_cases h1 : a < k
    · by_cases hv : v = unlisted
      · simpa only [h1, hv, if_true] using w'
      · simp only [h1, hv, if_true, if_false, wfCellsFrom, Bool.and_eq_true, decide_eq_true_eq]
        exact ⟨⟨⟨hlo, ha⟩, hv⟩, ⟨⟨⟨by omega, w.1.1.2⟩, w.1.2⟩, w.2⟩⟩
    · by_cases h2 : a = k
      · subst h2
        by_cases hv : v = unlisted
        · simp only [h1, hv, if_true, if_false]
          exact wfCellsFrom_mono (by omega) w.2
        · simp only [h1, hv, if_true, if_false, wfCellsFrom, Bool.and_eq_true, decide_eq_true_eq]
          exact ⟨⟨⟨hlo, ha⟩, hv⟩, w.2⟩
      · simp only [h1, h2, if_false, wfCellsFrom, Bool.and_eq_true, decide_eq_true_eq]
        exact ⟨⟨⟨w.1.1.1, w.1.1.2⟩, w.1.2⟩, ih w.2 (by omega)⟩

/-! ### The cells of the state -/

theorem State.setCell_cell_same (s : State) (h : Memory.wf s.mem = true) (a v : Word) : (s.setCell a v).cell a = v :=
  readCells_writeCells_same h a.toNat v

@[simp] theorem State.setCell_cell_ne (s : State) {a b : Word} (h : b ≠ a) (v : Word) :
    (s.setCell a v).cell b = s.cell b :=
  readCells_writeCells_ne s.mem (fun e => h (BitVec.eq_of_toNat_eq e)) v

theorem State.setCell_wf (s : State) (h : Memory.wf s.mem = true) (a v : Word) :
    Memory.wf (s.setCell a v).mem = true :=
  wfCellsFrom_writeCells h (Nat.zero_le _) a.isLt v

/-- Memory right after reset is in canonical form. -/
theorem State.reset_wf : Memory.wf State.reset.mem = true := rfl

end Sys2Proof.Machine
end

