-- ==== Sys2Proof/Laws/Ops.lean ====
section
/-! SUPPORT. What each shared operation of Machine/Ops.lean can do, once: which fields it leaves alone, and its result. -/

namespace Sys2Proof.Machine

open Sys2Proof

/-! ### `pollInput`: only the input source and the arrivals change -/

@[simp] theorem pollInput_regs (s : State) : (pollInput s).regs = s.regs := by unfold pollInput; split <;> rfl
@[simp] theorem pollInput_pc (s : State) : (pollInput s).pc = s.pc := by unfold pollInput; split <;> rfl
@[simp] theorem pollInput_cond (s : State) : (pollInput s).cond = s.cond := by unfold pollInput; split <;> rfl
@[simp] theorem pollInput_engine (s : State) : (pollInput s).engine = s.engine := by unfold pollInput; split <;> rfl
@[simp] theorem pollInput_mem (s : State) : (pollInput s).mem = s.mem := by unfold pollInput; split <;> rfl
@[simp] theorem pollInput_out (s : State) : (pollInput s).out = s.out := by unfold pollInput; split <;> rfl
@[simp] theorem pollInput_waiting (s : State) : (pollInput s).waiting = s.waiting := by unfold pollInput; split <;> rfl
@[simp] theorem pollInput_kbChar (s : State) : (pollInput s).kbChar = s.kbChar := by unfold pollInput; split <;> rfl

/-! ### `memRead`: only the keyboard can change -/

@[simp] theorem readKbsr_regs (s : State) : (readKbsr s).2.regs = s.regs := by unfold readKbsr; split <;> rfl
@[simp] theorem readKbsr_pc (s : State) : (readKbsr s).2.pc = s.pc := by unfold readKbsr; split <;> rfl
@[simp] theorem readKbsr_cond (s : State) : (readKbsr s).2.cond = s.cond := by unfold readKbsr; split <;> rfl
@[simp] theorem readKbsr_engine (s : State) : (readKbsr s).2.engine = s.engine := by unfold readKbsr; split <;> rfl
@[simp] theorem readKbsr_mem (s : State) : (readKbsr s).2.mem = s.mem := by unfold readKbsr; split <;> rfl
@[simp] theorem readKbsr_out (s : State) : (readKbsr s).2.out = s.out := by unfold readKbsr; split <;> rfl
@[simp] theorem readKbsr_waiting (s : State) : (readKbsr s).2.waiting = s.waiting := by unfold readKbsr; split <;> rfl
@[simp] theorem readKbsr_arrivals (s : State) : (readKbsr s).2.arrivals = s.arrivals := by unfold readKbsr; split <;> rfl
@[simp] theorem readKbdr_regs (s : State) : (readKbdr s).2.regs = s.regs := by unfold readKbdr; split <;> rfl
@[simp] theorem readKbdr_pc (s : State) : (readKbdr s).2.pc = s.pc := by unfold readKbdr; split <;> rfl
@[simp] theorem readKbdr_cond (s : State) : (readKbdr s).2.cond = s.cond := by unfold readKbdr; split <;> rfl
@[simp] theorem readKbdr_engine (s : State) : (readKbdr s).2.engine = s.engine := by unfold readKbdr; split <;> rfl
@[simp] theorem readKbdr_mem (s : State) : (readKbdr s).2.mem = s.mem := by unfold readKbdr; split <;> rfl
@[simp] theorem readKbdr_out (s : State) : (readKbdr s).2.out = s.out := by unfold readKbdr; split <;> rfl
@[simp] theorem readKbdr_waiting (s : State) : (readKbdr s).2.waiting = s.waiting := by unfold readKbdr; split <;> rfl
@[simp] theorem readKbdr_arrivals (s : State) : (readKbdr s).2.arrivals = s.arrivals := by unfold readKbdr; split <;> rfl
@[simp] theorem memRead_regs (a : Word) (s : State) : (memRead a s).2.regs = s.regs := by
  unfold memRead; split <;> [skip; split] <;> simp
@[simp] theorem memRead_pc (a : Word) (s : State) : (memRead a s).2.pc = s.pc := by
  unfold memRead; split <;> [skip; split] <;> simp
@[simp] theorem memRead_cond (a : Word) (s : State) : (memRead a s).2.cond = s.cond := by
  unfold memRead; split <;> [skip; split] <;> simp
@[simp] theorem memRead_engine (a : Word) (s : State) : (memRead a s).2.engine = s.engine := by
  unfold memRead; split <;> [skip; split] <;> simp
@[simp] theorem memRead_mem (a : Word) (s : State) : (memRead a s).2.mem = s.mem := by
  unfold memRead; split <;> [skip; split] <;> simp
@[simp] theorem memRead_out (a : Word) (s : State) : (memRead a s).2.out = s.out := by
  unfold memRead; split <;> [skip; split] <;> simp
@[simp] theorem memRead_waiting (a : Word) (s : State) : (memRead a s).2.waiting = s.waiting := by
  unfold memRead; split <;> [skip; split] <;> simp

@[simp] theorem memRead_reg (a : Word) (s : State) (r : Reg) : (memRead a s).2.reg r = s.reg r := by
  cases r <;> simp [State.reg]
@[simp] theorem memRead_cell (a b : Word) (s : State) : (memRead a s).2.cell b = s.cell b := by simp [State.cell]

/-! ### `memWrite`: only memory can change -/

@[simp] theorem memWrite_regs (a v : Word) (s : State) : (memWrite a v s).regs = s.regs := by unfold memWrite; split <;> rfl
@[simp] theorem memWrite_pc (a v : Word) (s : State) : (memWrite a v s).pc = s.pc := by unfold memWrite; split <;> rfl
@[simp] theorem memWrite_cond (a v : Word) (s : State) : (memWrite a v s).cond = s.cond := by unfold memWrite; split <;> rfl
@[simp] theorem memWrite_engine (a v : Word) (s : State) : (memWrite a v s).engine = s.engine := by unfold memWrite; split <;> rfl
@[simp] theorem memWrite_kbq (a v : Word) (s : State) : (memWrite a v s).kbq = s.kbq := by unfold memWrite; split <;> rfl
@[simp] theorem memWrite_kbChar (a v : Word) (s : State) : (memWrite a v s).kbChar = s.kbChar := by unfold memWrite; split <;> rfl
@[simp] theorem memWrite_out (a v : Word) (s : State) : (memWrite a v s).out = s.out := by unfold memWrite; split <;> rfl
@[simp] theorem memWrite_waiting (a v : Word) (s : State) : (memWrite a v s).waiting = s.waiting := by unfold memWrite; split <;> rfl
@[simp] theorem memWrite_arrivals (a v : Word) (s : State) : (memWrite a v s).arrivals = s.arrivals := by unfold memWrite; split <;> rfl

@[simp] theorem memWrite_reg (a v : Word) (s : State) (r : Reg) : (memWrite a v s).reg r = s.reg r := by
  cases r <;> simp [State.reg]

/-! ### `takeChar`: only the keyboard can change -/

@[simp] theorem takeChar_regs (s : State) : (takeChar s).2.regs = s.regs := by unfold takeChar; split <;> rfl
@[simp] theorem takeChar_pc (s : State) : (takeChar s).2.pc = s.pc := by unfold takeChar; split <;> rfl
@[simp] theorem takeChar_cond (s : State) : (takeChar s).2.cond = s.cond := by unfold takeChar; split <;> rfl
@[simp] theorem takeChar_engine (s : State) : (takeChar s).2.engine = s.engine := by unfold takeChar; split <;> rfl
@[simp] theorem takeChar_mem (s : State) : (takeChar s).2.mem = s.mem := by unfold takeChar; split <;> rfl
@[simp] theorem takeChar_out (s : State) : (takeChar s).2.out = s.out := by unfold takeChar; split <;> rfl
@[simp] theorem takeChar_waiting (s : State) : (takeChar s).2.waiting = s.waiting := by unfold takeChar; split <;> rfl

/-! ### `fetch` and `raiseIllegalOpcode` -/

@[simp] theorem fetch_regs (s : State) : (fetch s).2.regs = s.regs := by simp [fetch]
@[simp] theorem fetch_cond (s : State) : (fetch s).2.cond = s.cond := by simp [fetch]
@[simp] theorem fetch_mem (s : State) : (fetch s).2.mem = s.mem := by simp [fetch]
@[simp] theorem fetch_out (s : State) : (fetch s).2.out = s.out := by simp [fetch]
@[simp] theorem fetch_waiting (s : State) : (fetch s).2.waiting = s.waiting := by simp [fetch]
@[simp] theorem fetch_pc (s : State) : (fetch s).2.pc = s.pc + 1#16 := rfl
@[simp] theorem fetch_engine (s : State) : (fetch s).2.engine = .running := by simp [fetch]
@[simp] theorem fetch_reg (s : State) (r : Reg) : (fetch s).2.reg r = s.reg r := by simp [fetch]
@[simp] theorem fetch_cell (s : State) (a : Word) : (fetch s).2.cell a = s.cell a := by simp [fetch]

@[simp] theorem raiseIllegalOpcode_regs (op : BitVec 4) (s : State) : (raiseIllegalOpcode op s).regs = s.regs := rfl
@[simp] theorem raiseIllegalOpcode_pc (op : BitVec 4) (s : State) : (raiseIllegalOpcode op s).pc = s.pc := rfl
@[simp] theorem raiseIllegalOpcode_cond (op : BitVec 4) (s : State) : (raiseIllegalOpcode op s).cond = s.cond := rfl
@[simp] theorem raiseIllegalOpcode_mem (op : BitVec 4) (s : State) : (raiseIllegalOpcode op s).mem = s.mem := rfl
@[simp] theorem raiseIllegalOpcode_kbq (op : BitVec 4) (s : State) : (raiseIllegalOpcode op s).kbq = s.kbq := rfl
@[simp] theorem raiseIllegalOpcode_kbChar (op : BitVec 4) (s : State) : (raiseIllegalOpcode op s).kbChar = s.kbChar := rfl
@[simp] theorem raiseIllegalOpcode_out (op : BitVec 4) (s : State) : (raiseIllegalOpcode op s).out = s.out := rfl
@[simp] theorem raiseIllegalOpcode_waiting (op : BitVec 4) (s : State) : (raiseIllegalOpcode op s).waiting = s.waiting := rfl
@[simp] theorem raiseIllegalOpcode_arrivals (op : BitVec 4) (s : State) : (raiseIllegalOpcode op s).arrivals = s.arrivals := rfl

/-! ### What the operations answer -/

/-- A read of an ordinary address returns the cell and changes nothing (spec/20_memory.md R51). -/
theorem memRead_ordinary {a : Word} (h : isDevice a = false) (s : State) : memRead a s = (s.cell a, s) := by
  simp only [isDevice, Bool.or_eq_false_iff, decide_eq_false_iff_not] at h
  simp [memRead, h.1, h.2]

/-- A write at an ordinary address is the cell's write (R55). -/
theorem memWrite_ordinary {a : Word} (h : isDevice a = false) (v : Word) (s : State) :
    memWrite a v s = s.setCell a v := by simp [memWrite, h]

/-- A write at a device address is nothing (R56). -/
theorem memWrite_device {a : Word} (h : isDevice a = true) (v : Word) (s : State) : memWrite a v s = s := by
  simp [memWrite, h]

/-- A write leaves every other cell alone. -/
theorem memWrite_cell_ne (s : State) {a b : Word} (h : b ≠ a) (v : Word) :
    (memWrite a v s).cell b = s.cell b := by
  unfold memWrite
  split
  · rfl
  · exact s.setCell_cell_ne h v

/-- A write keeps the canonical form of memory. -/
theorem memWrite_wf (s : State) (h : Memory.wf s.mem = true) (a v : Word) :
    Memory.wf (memWrite a v s).mem = true := by
  unfold memWrite
  split
  · exact h
  · exact s.setCell_wf h a v

/-- A write leaves the cells under the device addresses alone (R50, R56). -/
theorem memWrite_cell_device (s : State) (a v : Word) {d : Word} (hd : isDevice d = true) :
    (memWrite a v s).cell d = s.cell d := by
  unfold memWrite
  split
  · rfl
  · next h =>
    refine s.setCell_cell_ne (fun e => h ?_) v
    rw [← e, hd]

/-- Bringing the pending characters up to date loses, adds and reorders none. -/
theorem pollInput_inputToCome (s : State) : (pollInput s).inputToCome = s.inputToCome := by
  unfold pollInput
  split
  · rfl
  · next h => simp [State.inputToCome, h]

/-- While the environment's next arrivals are waited for, no character is lost, added or reordered. -/
theorem awaitInput_append (q : List Byte) (later : List (List Byte)) :
    (awaitInput q later).1 ++ (awaitInput q later).2.flatten = q ++ later.flatten := by
  induction later generalizing q with
  | nil => cases q <;> rfl
  | cons now later ih =>
    cases q with
    | nil => simpa [awaitInput] using ih now
    | cons c q => rfl

/-- If `awaitInput` finds nothing pending, nothing is to come either. -/
theorem awaitInput_nil {q : List Byte} {later : List (List Byte)} (h : (awaitInput q later).1 = []) :
    q = [] ∧ (awaitInput q later).2 = [] := by
  induction later generalizing q with
  | nil => cases q <;> simp_all [awaitInput]
  | cons now later ih =>
    cases q with
    | nil => simpa [awaitInput] using (ih (q := now) h).2
    | cons c q => simp [awaitInput] at h

/-- `In()` takes the first character to come if there is one, and otherwise finds the input exhausted (R163). -/
theorem takeChar_cases (s : State) :
    (∃ c t, takeChar s = (some c, t) ∧ s.inputToCome = c :: t.inputToCome ∧ t.kbChar = c) ∨
    (∃ t, takeChar s = (none, t) ∧ s.inputToCome = [] ∧ t.inputToCome = [] ∧ t.kbChar = s.kbChar) := by
  have app := awaitInput_append s.kbq s.arrivals
  have emp := @awaitInput_nil s.kbq s.arrivals
  unfold takeChar
  generalize awaitInput s.kbq s.arrivals = r at app emp
  obtain ⟨_ | ⟨c, q⟩, later⟩ := r
  · right
    obtain ⟨-, h⟩ := emp rfl
    subst h
    exact ⟨_, rfl, by simpa [State.inputToCome] using app.symm, rfl, rfl⟩
  · left
    exact ⟨c, _, rfl, by simpa [State.inputToCome] using app.symm, rfl⟩

/-- With a character pending, `In()` takes it (R163). -/
theorem takeChar_pending (s : State) {c : Byte} {q : List Byte} (h : s.kbq = c :: q) :
    takeChar s = (some c, { s with kbq := q, kbChar := c }) := by
  simp [takeChar, awaitInput, h]

/-- What a read does to the characters to come: nothing, or, at KBDR with one pending, it consumes the first
(R52 to R54). -/
theorem memRead_inputToCome (a : Word) (s : State) :
    (memRead a s).2.inputToCome = s.inputToCome ∨
    (a = kbdrAddr ∧ ∃ c, s.inputToCome = c :: (memRead a s).2.inputToCome ∧ (memRead a s).1 = zext c) := by
  unfold memRead
  split
  · left
    rw [← pollInput_inputToCome s]
    unfold readKbsr
    split <;> rfl
  · split
    · next h =>
      rw [← pollInput_inputToCome s]
      unfold readKbdr
      split
      · exact .inl rfl
      · next c q hq => exact .inr ⟨h, c, by simp [State.inputToCome, hq], rfl⟩
    · exact .inl rfl

end Sys2Proof.Machine
end

