-- ==== Sys2Proof/Laws/PerInstr.lean ====
section
/-! SUPPORT. A law of every instruction as a term of `Instr`, one lemma per constructor: the opcode field of its word is
that of its mnemonic (spec/30_encoding.md R80, R81). -/

namespace Sys2Proof.Laws.OpcodeField

open Sys2Proof

/-- Bits [15:12] of the instruction's word carry the opcode of its mnemonic. -/
def Statement (i : Instr) : Prop := opcodeMap ((encode i).extractLsb' 12 4) = i.opcode

/-- The two readings of the table of R81 agree. -/
theorem opcodeMap_opcodeValue (op : Opcode) : opcodeMap (opcodeValue op) = op := by cases op <;> rfl

theorem wordOf_opcode (op : Opcode) (operands : BitVec 12) :
    opcodeMap ((wordOf op operands).extractLsb' 12 4) = op := by
  have : (wordOf op operands).extractLsb' 12 4 = opcodeValue op := by
    rw [wordOf, BitVec.extractLsb'_append_eq_left]
  rw [this, opcodeMap_opcodeValue]

theorem br (nzp : BitVec 3) (off : BitVec 9) : Statement (.br nzp off) := wordOf_opcode _ _
theorem addReg (dr sr1 sr2 : Reg) : Statement (.addReg dr sr1 sr2) := wordOf_opcode _ _
theorem addImm (dr sr1 : Reg) (imm : BitVec 5) : Statement (.addImm dr sr1 imm) := wordOf_opcode _ _
theorem ld (dr : Reg) (off : BitVec 9) : Statement (.ld dr off) := wordOf_opcode _ _
theorem st (sr : Reg) (off : BitVec 9) : Statement (.st sr off) := wordOf_opcode _ _
theorem jsrr (base : Reg) : Statement (.jsrr base) := wordOf_opcode _ _
theorem jsr (off : BitVec 11) : Statement (.jsr off) := wordOf_opcode _ _
theorem andReg (dr sr1 sr2 : Reg) : Statement (.andReg dr sr1 sr2) := wordOf_opcode _ _
theorem andImm (dr sr1 : Reg) (imm : BitVec 5) : Statement (.andImm dr sr1 imm) := wordOf_opcode _ _
theorem ldr (dr base : Reg) (off : BitVec 6) : Statement (.ldr dr base off) := wordOf_opcode _ _
theorem str (sr base : Reg) (off : BitVec 6) : Statement (.str sr base off) := wordOf_opcode _ _
theorem rti : Statement (.rti) := wordOf_opcode _ _
theorem not (dr sr : Reg) : Statement (.not dr sr) := wordOf_opcode _ _
theorem ldi (dr : Reg) (off : BitVec 9) : Statement (.ldi dr off) := wordOf_opcode _ _
theorem sti (sr : Reg) (off : BitVec 9) : Statement (.sti sr off) := wordOf_opcode _ _
theorem jmp (base : Reg) : Statement (.jmp base) := wordOf_opcode _ _
theorem res : Statement (.res) := wordOf_opcode _ _
theorem lea (dr : Reg) (off : BitVec 9) : Statement (.lea dr off) := wordOf_opcode _ _
theorem trap (vect : BitVec 8) : Statement (.trap vect) := wordOf_opcode _ _
theorem getc : Statement (.getc) := wordOf_opcode _ _
theorem out : Statement (.out) := wordOf_opcode _ _
theorem puts : Statement (.puts) := wordOf_opcode _ _
theorem inp : Statement (.inp) := wordOf_opcode _ _
theorem putsp : Statement (.putsp) := wordOf_opcode _ _
theorem halt : Statement (.halt) := wordOf_opcode _ _

end Sys2Proof.Laws.OpcodeField
end

