-- ==== Sys2Proof/Laws/Strings.lean ====
section
/-! SUPPORT. The string services PUTS and PUTSP: what their loops leave alone, and that they end from every state, because
the read at 0xFE00 ends the string unless a character is pending and the read at 0xFE02 then consumes one (log 9). -/

namespace Sys2Proof.Machine

open Sys2Proof

/-! ### What the loops leave alone -/

/-- Everything but the output and the keyboard is the same, and the output only grows. -/
structure SameButStreams (s t : State) : Prop where
  regs : t.regs = s.regs
  pc : t.pc = s.pc
  cond : t.cond = s.cond
  engine : t.engine = s.engine
  mem : t.mem = s.mem
  waiting : t.waiting = s.waiting
  out : s.out <+: t.out
  input : t.inputToCome <:+ s.inputToCome

theorem SameButStreams.trans {s t u : State} (h : SameButStreams s t) (k : SameButStreams t u) :
    SameButStreams s u where
  regs := k.regs.trans h.regs
  pc := k.pc.trans h.pc
  cond := k.cond.trans h.cond
  engine := k.engine.trans h.engine
  mem := k.mem.trans h.mem
  waiting := k.waiting.trans h.waiting
  out := h.out.trans k.out
  input := k.input.trans h.input

theorem SameButStreams.read (a : Word) (s : State) : SameButStreams s (memRead a s).2 where
  regs := by simp
  pc := by simp
  cond := by simp
  engine := by simp
  mem := by simp
  waiting := by simp
  out := by simp
  input := by
    rcases memRead_inputToCome a s with h | ⟨-, c, h, -⟩
    · exact h ▸ List.suffix_refl _
    · exact h ▸ List.suffix_cons c _

theorem SameButStreams.byte (b : Byte) (s : State) : SameButStreams s (outByte b s) where
  regs := rfl
  pc := rfl
  cond := rfl
  engine := rfl
  mem := rfl
  waiting := rfl
  out := by simp
  input := List.suffix_refl _

theorem putsLoop_same {n : Nat} {a : Word} {s t : State} (h : putsLoop n a s = some t) : SameButStreams s t := by
  induction n generalizing a s with
  | zero => cases h
  | succ n ih =>
    simp only [putsLoop] at h
    split at h
    · cases h
      exact .read a s
    · exact (SameButStreams.read a s).trans ((SameButStreams.byte _ _).trans (ih h))

theorem putspLoop_same {n : Nat} {a : Word} {s t : State} (h : putspLoop n a s = some t) : SameButStreams s t := by
  induction n generalizing a s with
  | zero => cases h
  | succ n ih =>
    simp only [putspLoop] at h
    split at h
    · cases h
      exact .read a s
    · split at h
      · cases h
        exact (SameButStreams.read a s).trans (.byte _ _)
      · exact (SameButStreams.read a s).trans
          ((SameButStreams.byte _ _).trans ((SameButStreams.byte _ _).trans (ih h)))

/-! ### That the loops end -/

/-- A character is pending, or the address is not between the two device reads. -/
def stringReady (a : Word) (s : State) : Prop := s.kbq ≠ [] ∨ (a ≠ 0xFE01#16 ∧ a ≠ kbdrAddr)

/-- Words that can still be read: whole rounds for the characters to come, and the way to 0xFE02. -/
def stringLeft (a : Word) (s : State) : Nat := 65536 * s.inputToCome.length + (kbdrAddr - a).toNat

/-- One word nearer to the end, if the word read is not zero. -/
theorem stringLeft_read {a : Word} {s : State} (h : stringReady a s) (z : (memRead a s).1 ≠ 0x0000#16) :
    stringReady (a + 1#16) (memRead a s).2 ∧ stringLeft (a + 1#16) (memRead a s).2 < stringLeft a s := by
  by_cases h0 : a = kbsrAddr
  · subst h0
    have e : memRead kbsrAddr s = readKbsr (pollInput s) := by simp [memRead]
    rw [e] at z ⊢
    have len := congrArg List.length (pollInput_inputToCome s)
    cases hq : (pollInput s).kbq with
    | nil => simp [readKbsr, hq] at z
    | cons c q =>
      refine ⟨.inl (by simp [readKbsr, hq]), ?_⟩
      simp only [stringLeft, readKbsr, hq, State.inputToCome] at len ⊢
      rw [len]
      have : (kbdrAddr - (kbsrAddr + 1#16)).toNat < (kbdrAddr - kbsrAddr).toNat := by decide
      omega
  · by_cases h2 : a = kbdrAddr
    · subst h2
      have e : memRead kbdrAddr s = readKbdr (pollInput s) := by
        simp [memRead, show ¬ kbdrAddr = kbsrAddr by decide]
      rw [e]
      have len := congrArg List.length (pollInput_inputToCome s)
      have ne : (pollInput s).kbq ≠ [] := by
        rcases h with h | h
        · unfold pollInput; split <;> simp [h]
        · exact absurd rfl h.2
      cases hq : (pollInput s).kbq with
      | nil => exact absurd hq ne
      | cons c q =>
        refine ⟨.inr (by decide), ?_⟩
        simp only [stringLeft, readKbdr, hq, State.inputToCome, List.length_append, List.length_cons] at len ⊢
        rw [← len]
        have e1 : (kbdrAddr - (kbdrAddr + 1#16)).toNat = 65535 := by decide
        have e2 : (kbdrAddr - kbdrAddr).toNat = 0 := by decide
        omega
    · have e : memRead a s = (s.cell a, s) := memRead_ordinary (by simp [isDevice, h0, h2]) s
      rw [e]
      have d : (kbdrAddr - (a + 1#16)).toNat < (kbdrAddr - a).toNat := by
        simp only [kbdrAddr, kbsrAddr] at *
        bv_omega
      refine ⟨?_, by simp only [stringLeft]; omega⟩
      rcases h with h | h
      · exact .inl h
      · refine .inr ⟨?_, ?_⟩
        · intro e1; apply h0; simp only [kbsrAddr]; bv_omega
        · intro e1; apply h.1; simp only [kbdrAddr] at e1; bv_omega

theorem putsLoop_ends {n : Nat} {a : Word} {s : State} (h : stringReady a s) (b : stringLeft a s < n) :
    ∃ t, putsLoop n a s = some t := by
  induction n generalizing a s with
  | zero => omega
  | succ n ih =>
    simp only [putsLoop]
    split
    · exact ⟨_, rfl⟩
    · next z =>
      have ⟨h', b'⟩ := stringLeft_read h z
      exact ih h' (by simp only [stringLeft, State.inputToCome, outByte_kbq, outByte_arrivals] at b' b ⊢; omega)

theorem putspLoop_ends {n : Nat} {a : Word} {s : State} (h : stringReady a s) (b : stringLeft a s < n) :
    ∃ t, putspLoop n a s = some t := by
  induction n generalizing a s with
  | zero => omega
  | succ n ih =>
    simp only [putspLoop]
    split
    · exact ⟨_, rfl⟩
    · next z =>
      split
      · exact ⟨_, rfl⟩
      · have z' : (memRead a s).1 ≠ 0x0000#16 := fun e => z (by rw [e]; rfl)
        have ⟨h', b'⟩ := stringLeft_read h z'
        exact ih h' (by simp only [stringLeft, State.inputToCome, outByte_kbq, outByte_arrivals] at b' b ⊢; omega)

theorem stringBound_eq (s : State) : stringBound s = 65536 * (s.inputToCome.length + 2) := by
  simp [stringBound, State.inputToCome, List.length_flatten]

/-- From every state and address there is a moment, at most two words on, at which `stringReady` holds; the bound leaves
room for it. -/
theorem stringReady_or (a : Word) (s : State) :
    stringReady a s ∨ (a = 0xFE01#16 ∨ a = kbdrAddr) := by
  unfold stringReady
  tauto

theorem stringLeft_le (a : Word) (s : State) : stringLeft a s < 65536 * (s.inputToCome.length + 1) := by
  have := (kbdrAddr - a).isLt
  simp only [stringLeft]
  omega

theorem inputToCome_read_le (a : Word) (s : State) :
    (memRead a s).2.inputToCome.length ≤ s.inputToCome.length :=
  (SameButStreams.read a s).input.length_le

/-- PUTS' loop ends from every state, within its bound. -/
theorem putsLoop_bound (a : Word) (s : State) : ∃ t, putsLoop (stringBound s) a s = some t := by
  have key : ∀ (n : Nat) (a : Word) (s : State), stringReady a s → 65536 * (s.inputToCome.length + 1) ≤ n →
      ∃ t, putsLoop n a s = some t :=
    fun n a s h b => putsLoop_ends h (Nat.lt_of_lt_of_le (stringLeft_le a s) b)
  have next : ∀ (n : Nat) (a : Word) (s : State), (∀ s', s'.inputToCome.length ≤ s.inputToCome.length →
      ∃ t, putsLoop n (a + 1#16) s' = some t) → ∃ t, putsLoop (n + 1) a s = some t := by
    intro n a s h
    simp only [putsLoop]
    split
    · exact ⟨_, rfl⟩
    · exact h _ (inputToCome_read_le a s)
  rw [stringBound_eq]
  obtain ⟨n, hn⟩ : ∃ n, 65536 * (s.inputToCome.length + 2) = (n + 1) + 1 :=
    ⟨65536 * (s.inputToCome.length + 2) - 2, by omega⟩
  rcases stringReady_or a s with h | rfl | rfl
  · exact key _ a s h (by omega)
  · rw [hn]
    refine next _ _ s fun s' le => ?_
    have : (0xFE01#16 + 1#16 : Word) = kbdrAddr := by decide
    rw [this]
    exact next _ _ s' fun s'' le' => key n _ s'' (.inr (by decide)) (by omega)
  · rw [hn]
    exact next _ _ s fun s' le => key (n + 1) _ s' (.inr (by decide)) (by omega)

/-- PUTSP's loop ends from every state, within its bound. -/
theorem putspLoop_bound (a : Word) (s : State) : ∃ t, putspLoop (stringBound s) a s = some t := by
  have key : ∀ (n : Nat) (a : Word) (s : State), stringReady a s → 65536 * (s.inputToCome.length + 1) ≤ n →
      ∃ t, putspLoop n a s = some t :=
    fun n a s h b => putspLoop_ends h (Nat.lt_of_lt_of_le (stringLeft_le a s) b)
  have next : ∀ (n : Nat) (a : Word) (s : State), (∀ s', s'.inputToCome.length ≤ s.inputToCome.length →
      ∃ t, putspLoop n (a + 1#16) s' = some t) → ∃ t, putspLoop (n + 1) a s = some t := by
    intro n a s h
    simp only [putspLoop]
    split
    · exact ⟨_, rfl⟩
    · split
      · exact ⟨_, rfl⟩
      · exact h _ (inputToCome_read_le a s)
  rw [stringBound_eq]
  obtain ⟨n, hn⟩ : ∃ n, 65536 * (s.inputToCome.length + 2) = (n + 1) + 1 :=
    ⟨65536 * (s.inputToCome.length + 2) - 2, by omega⟩
  rcases stringReady_or a s with h | rfl | rfl
  · exact key _ a s h (by omega)
  · rw [hn]
    refine next _ _ s fun s' le => ?_
    have : (0xFE01#16 + 1#16 : Word) = kbdrAddr := by decide
    rw [this]
    exact next _ _ s' fun s'' le' => key n _ s'' (.inr (by decide)) (by omega)
  · rw [hn]
    exact next _ _ s fun s' le => key (n + 1) _ s' (.inr (by decide)) (by omega)

/-! ### What the loops write, given the words read one after the other -/

/-- A read does not look at the output. -/
theorem memRead_withOut (a : Word) (s : State) (o : List Byte) :
    memRead a { s with out := o } = ((memRead a s).1, { (memRead a s).2 with out := o }) := by
  have poll : ∀ s : State, pollInput { s with out := o } = { pollInput s with out := o } := by
    rintro ⟨_, _, _, _, _, _, _, _, _, _ | _⟩ <;> rfl
  have status : ∀ s : State, readKbsr { s with out := o } = ((readKbsr s).1, { (readKbsr s).2 with out := o }) := by
    rintro ⟨_, _, _, _, _, _ | _, _, _, _, _⟩ <;> rfl
  have data : ∀ s : State, readKbdr { s with out := o } = ((readKbdr s).1, { (readKbdr s).2 with out := o }) := by
    rintro ⟨_, _, _, _, _, _ | _, _, _, _, _⟩ <;> rfl
  simp only [memRead, poll, status, data]
  split
  · rfl
  · split <;> rfl

/-- The address after the first of `n + 1`. -/
theorem stringAddr_succ (a : Word) (n : Nat) : a + 1#16 + BitVec.ofNat 16 n = a + BitVec.ofNat 16 (n + 1) := by
  rw [BitVec.add_assoc, ← BitVec.ofNat_add, Nat.add_comm 1 n]

/-- If PUTS's loop ends, and the words read are first `ws`, without a zero word, and then a zero word, it has written the
low bytes of `ws` (R166). -/
theorem putsLoop_reads {bound n : Nat} {a : Word} {s t u v : State} {ws : List Word} {o : List Byte}
    (hr : readsFrom n a s = (ws, u)) (hn : ∀ w ∈ ws, w ≠ 0x0000#16)
    (hz : memRead (a + BitVec.ofNat 16 n) u = (0x0000#16, t)) (he : putsLoop bound a { s with out := o } = some v) :
    v = { t with out := o ++ ws.map lowByte } := by
  induction n generalizing a s ws o bound with
  | zero =>
    cases bound with
    | zero => cases he
    | succ bound =>
      simp only [readsFrom, Prod.mk.injEq] at hr
      obtain ⟨rfl, rfl⟩ := hr
      rw [BitVec.add_zero] at hz
      simpa [putsLoop, memRead_withOut, hz] using he.symm
  | succ n ih =>
    cases bound with
    | zero => cases he
    | succ bound =>
      simp only [readsFrom, Prod.mk.injEq] at hr
      obtain ⟨rfl, rfl⟩ := hr
      have h0 := hn _ List.mem_cons_self
      simp only [putsLoop, memRead_withOut, if_neg h0] at he
      rw [← stringAddr_succ] at hz
      have := ih rfl (fun w hw => hn w (List.mem_cons_of_mem _ hw)) hz he
      simpa using this

/-- If PUTSP's loop ends, and the words read are first `ws`, without a zero byte, and then `last` with one, it has written
both bytes of each of `ws`, and the low byte of `last` if that is not zero (R169). -/
theorem putspLoop_reads {bound n : Nat} {a last : Word} {s t u v : State} {ws : List Word} {o : List Byte}
    (hr : readsFrom n a s = (ws, u)) (hn : ∀ w ∈ ws, lowByte w ≠ 0x00#8 ∧ highByte w ≠ 0x00#8)
    (hz : memRead (a + BitVec.ofNat 16 n) u = (last, t)) (hl : lowByte last = 0x00#8 ∨ highByte last = 0x00#8)
    (he : putspLoop bound a { s with out := o } = some v) :
    v = { t with out := o ++ (ws.flatMap fun w => [lowByte w, highByte w]) ++
      (if lowByte last = 0x00#8 then [] else [lowByte last]) } := by
  induction n generalizing a s ws o bound with
  | zero =>
    cases bound with
    | zero => cases he
    | succ bound =>
      simp only [readsFrom, Prod.mk.injEq] at hr
      obtain ⟨rfl, rfl⟩ := hr
      rw [BitVec.add_zero] at hz
      by_cases h0 : lowByte last = 0x00#8
      · simpa [putspLoop, memRead_withOut, hz, h0] using he.symm
      · simpa [putspLoop, memRead_withOut, hz, h0, hl.resolve_left h0, outByte] using he.symm
  | succ n ih =>
    cases bound with
    | zero => cases he
    | succ bound =>
      simp only [readsFrom, Prod.mk.injEq] at hr
      obtain ⟨rfl, rfl⟩ := hr
      have h0 := hn _ List.mem_cons_self
      simp only [putspLoop, memRead_withOut, if_neg h0.1, if_neg h0.2] at he
      rw [← stringAddr_succ] at hz
      have := ih rfl (fun w hw => hn w (List.mem_cons_of_mem _ hw)) hz he
      simpa using this

end Sys2Proof.Machine
end

