-- ==== Sys2Proof/Laws/Services.lean ====
section
/-! SUPPORT. What the shared operations under the meanings can do, once each: the flags of a result, a load, a waiting
service, the string services; and that a read looks at the memory and the keyboard only. -/

namespace Sys2Proof.Machine

open Sys2Proof

/-! ### Registers as a whole -/

theorem reg_of_regs {s t : State} (h : t.regs = s.regs) (r : Reg) : t.reg r = s.reg r := by
  cases r <;> simp [State.reg, h]

theorem reg_of_regs_set {s t : State} {r : Reg} {v : Word} (h : t.regs = s.regs.set r v) (q : Reg) :
    t.reg q = (s.setReg r v).reg q := reg_of_regs h q

theorem cell_of_mem {s t : State} (h : t.mem = s.mem) (a : Word) : t.cell a = s.cell a := by simp [State.cell, h]

/-! ### Flags -/

/-- The flag update is the spec's table (spec/10_state.md R24). -/
theorem flagsOf_condOf (v : Word) : FlagsOf v (condOf v) := by
  refine ⟨fun h => ?_, fun h => ?_, fun h h' => ?_⟩
  · have : v = 0#16 := by bv_omega
    simp [condOf, this]
  · have h1 : v ≠ 0#16 := by bv_omega
    have h2 : v.msb = true := by rw [BitVec.msb_eq_decide]; simpa using h
    simp [condOf, h1, h2]
  · have h1 : v ≠ 0#16 := by bv_omega
    have h2 : v.msb = false := by rw [BitVec.msb_eq_decide]; simp; omega
    simp [condOf, h1, h2]

theorem condOf_oneFlag (v : Word) : condOf v = condN ∨ condOf v = condZ ∨ condOf v = condP := by
  unfold condOf
  split
  · exact .inr (.inl rfl)
  · split
    · exact .inl rfl
    · exact .inr (.inr rfl)

/-! ### A result written with its flags, and a load -/

/-- What writing a result does (R26). -/
theorem setRegCC_spec (s : State) (dr : Reg) (v : Word) :
    let t := s.setRegCC dr v
    t.reg dr = v ∧ FlagsOf v t.cond ∧ SameRegsBut dr s t ∧ t.pc = s.pc ∧ SameMemory s t ∧ SameKeyboard s t ∧
      SameControl s t ∧ t.out = s.out := by
  refine ⟨by simp, ?_, fun q hq => by simp [hq], rfl, fun _ => rfl, ⟨rfl, rfl, rfl⟩, ⟨rfl, rfl⟩, rfl⟩
  rw [State.setRegCC_cond]
  exact flagsOf_condOf v

/-- What a load does (spec/42_load.md R130). -/
theorem loadFrom_spec (dr : Reg) (a : Word) (s : State) :
    let t := loadFrom dr a s
    t.reg dr = (memRead a s).1 ∧ FlagsOf (memRead a s).1 t.cond ∧ SameRegsBut dr s t ∧ t.pc = s.pc ∧ SameMemory s t ∧
      SameKeyboard (memRead a s).2 t ∧ SameControl s t ∧ t.out = s.out := by
  refine ⟨by simp [loadFrom], ?_, fun q hq => by simp [loadFrom, hq], by simp [loadFrom], fun b => by simp [loadFrom],
    ⟨rfl, rfl, rfl⟩, ⟨by simp [loadFrom], by simp [loadFrom]⟩, by simp [loadFrom]⟩
  rw [loadFrom, State.setRegCC_cond]
  exact flagsOf_condOf _

/-! ### A service that waits -/

/-- A service that has its character gives it in R0 and, for IN, echoes it; otherwise it waits and nothing else changes
(spec/45_trap.md R163, R164, R167). -/
theorem resumeService_cases (w : Waiting) (s : State) :
    (∃ c, s.inputToCome = c :: (resumeService w s).inputToCome ∧ (resumeService w s).waiting = none ∧
      (resumeService w s).kbChar = c ∧ (resumeService w s).regs = s.regs.set .r0 (zext c) ∧
      (resumeService w s).out = s.out ++ (if w = .inp then [c] else [])) ∨
    (s.inputToCome = [] ∧ resumeService w s = { s with kbq := [], arrivals := [], waiting := some w }) := by
  have app := awaitInput_append s.kbq s.arrivals
  have emp := @awaitInput_nil s.kbq s.arrivals
  unfold resumeService takeChar
  generalize awaitInput s.kbq s.arrivals = r at app emp
  obtain ⟨_ | ⟨c, q⟩, later⟩ := r
  · right
    obtain ⟨-, h⟩ := emp rfl
    subst h
    exact ⟨by simpa [State.inputToCome] using app.symm, rfl⟩
  · left
    refine ⟨c, ?_⟩
    have e : s.inputToCome = c :: (q ++ later.flatten) := by simpa [State.inputToCome] using app.symm
    rw [e]
    cases w
    · exact ⟨rfl, rfl, rfl, rfl, (List.append_nil _).symm⟩
    · exact ⟨rfl, rfl, rfl, rfl, rfl⟩

/-- What a service that waits or goes on leaves alone (R161). -/
theorem resumeService_frame (w : Waiting) (s : State) :
    (resumeService w s).pc = s.pc ∧ (resumeService w s).cond = s.cond ∧ (resumeService w s).engine = s.engine ∧
      (resumeService w s).mem = s.mem ∧ SameRegsBut .r0 s (resumeService w s) ∧
      s.out <+: (resumeService w s).out ∧ (resumeService w s).inputToCome <:+ s.inputToCome := by
  have frame : (resumeService w s).pc = s.pc ∧ (resumeService w s).cond = s.cond ∧
      (resumeService w s).engine = s.engine ∧ (resumeService w s).mem = s.mem := by
    unfold resumeService takeChar
    generalize awaitInput s.kbq s.arrivals = r
    obtain ⟨_ | ⟨c, q⟩, later⟩ := r
    · exact ⟨rfl, rfl, rfl, rfl⟩
    · cases w <;> exact ⟨rfl, rfl, rfl, rfl⟩
  refine ⟨frame.1, frame.2.1, frame.2.2.1, frame.2.2.2, ?_⟩
  rcases resumeService_cases w s with ⟨c, e1, -, -, e4, e5⟩ | ⟨e1, e2⟩
  · refine ⟨fun q hq => (reg_of_regs_set e4 q).trans (by simp [hq]), ?_, ?_⟩
    · rw [e5]; exact List.prefix_append _ _
    · rw [e1]; exact List.suffix_cons c _
  · refine ⟨fun q _ => reg_of_regs (by rw [e2]) q, by rw [e2], ?_⟩
    rw [e1, e2]
    exact List.suffix_refl []

/-! ### The string services -/

theorem servicePuts_same {s t : State} (h : servicePuts s = .next t) : SameButStreams s t := by
  unfold servicePuts at h
  cases e : putsLoop (stringBound s) (s.reg .r0) s with
  | none => simp [e, stringOutcome] at h
  | some u =>
    simp only [e, stringOutcome, Host.Outcome.next.injEq] at h
    exact h ▸ putsLoop_same e

theorem servicePutsp_same {s t : State} (h : servicePutsp s = .next t) : SameButStreams s t := by
  unfold servicePutsp at h
  cases e : putspLoop (stringBound s) (s.reg .r0) s with
  | none => simp [e, stringOutcome] at h
  | some u =>
    simp only [e, stringOutcome, Host.Outcome.next.injEq] at h
    exact h ▸ putspLoop_same e

/-! ### A read looks at the memory and the keyboard only -/

/-- The memory and the keyboard of `s` in a state that is otherwise `base`. -/
def State.storageOf (base s : State) : State :=
  { base with mem := s.mem, kbq := s.kbq, kbChar := s.kbChar, arrivals := s.arrivals }

/-- A read gives the same word, and does the same to the keyboard, whatever the rest of the state is. -/
theorem memRead_storageOf (a : Word) (base s : State) :
    memRead a (base.storageOf s) = ((memRead a s).1, base.storageOf (memRead a s).2) := by
  have poll : ∀ s, pollInput (base.storageOf s) = base.storageOf (pollInput s) := by
    rintro ⟨_, _, _, _, _, _, _, _, _, _ | _⟩ <;> rfl
  have status : ∀ s, readKbsr (base.storageOf s) = ((readKbsr s).1, base.storageOf (readKbsr s).2) := by
    rintro ⟨_, _, _, _, _, _ | _, _, _, _, _⟩ <;> rfl
  have data : ∀ s, readKbdr (base.storageOf s) = ((readKbdr s).1, base.storageOf (readKbdr s).2) := by
    rintro ⟨_, _, _, _, _, _ | _, _, _, _, _⟩ <;> rfl
  simp only [memRead, poll, status, data]
  split
  · rfl
  · split <;> rfl

end Sys2Proof.Machine
end

