-- ==== Sys2Proof/Tests/Slice0.lean ====
section
/-! SUPPORT. The model's own tests. Expected results are those of spec/95_test_vectors.md, whose row each theorem names
(B1, A1, ... its vectors, S1 to S11 its worked examples, K1, M1, I1 to I8, Z1); words are written out from the encodings of
spec/30_encoding.md R82 and R91. After them, for each statement with hypotheses, a witness that they can be met. -/

namespace Sys2Proof.Tests

open Sys2Proof Sys2Proof.Machine

/-! ## Helpers -/

/-- The conventions of 95_test_vectors.md: the word `w` at address `a`, and PC there. -/
def put (a w : Word) (s : State) : State := { s.setCell a w with pc := a }

/-- What `f` sees in the state after one step. -/
def after {α : Type} (s : State) (f : State → α) : Option α :=
  match step s with
  | .next t => some (f t)
  | .fault _ => none
  | .refused _ => none

/-- The reset state with one, and with two, registers preset. -/
def with1 (r : Reg) (v : Word) : State := State.reset.setReg r v
def with2 (r : Reg) (v : Word) (r' : Reg) (v' : Word) : State := (with1 r v).setReg r' v'

/-- The reset state with COND preset. -/
def withCond (c : BitVec 3) (s : State) : State := { s with cond := c }

/-- The reset state with characters pending. -/
def withKbq (q : List Byte) (s : State) : State := { s with kbq := q }

/-- Running, as a state inside or after a first step is. -/
def running (s : State) : State := { s with engine := .running }

/-! ## WellFormed: the one check refuses a TRAP that carries a listed vector -/

theorem test_wf_refuses_trap_with_first_service_vector : (Instr.trap 0x20#8).wf = false := by decide
theorem test_wf_refuses_trap_with_last_service_vector : (Instr.trap 0x25#8).wf = false := by decide
theorem test_wf_accepts_trap_beside_the_services :
    (Instr.trap 0x1F#8).wf = true ∧ (Instr.trap 0x26#8).wf = true ∧ Instr.halt.wf = true := by decide

/-! ## Decode: a word written out bit by bit for every constructor (95_test_vectors.md section 11) -/

theorem test_decode_br : decode 0b0000_001_111111101#16 = .br 0b001#3 0x1FD#9 := by decide
theorem test_decode_addReg : decode 0b0001_000_000_0_00_001#16 = .addReg .r0 .r0 .r1 := by decide
theorem test_decode_addImm : decode 0b0001_001_000_1_11101#16 = .addImm .r1 .r0 0x1D#5 := by decide
theorem test_decode_ld : decode 0b0010_000_000000111#16 = .ld .r0 7#9 := by decide
theorem test_decode_st : decode 0b0011_000_000000001#16 = .st .r0 1#9 := by decide
theorem test_decode_jsrr : decode 0b0100_0_00_010_000000#16 = .jsrr .r2 := by decide
theorem test_decode_jsr : decode 0b0100_1_00000000011#16 = .jsr 3#11 := by decide
theorem test_decode_andReg : decode 0b0101_010_000_0_00_001#16 = .andReg .r2 .r0 .r1 := by decide
theorem test_decode_andImm : decode 0b0101_000_000_1_00000#16 = .andImm .r0 .r0 0#5 := by decide
theorem test_decode_ldr : decode 0b0110_010_001_111111#16 = .ldr .r2 .r1 0x3F#6 := by decide
theorem test_decode_str : decode 0b0111_000_110_111111#16 = .str .r0 .r6 0x3F#6 := by decide
theorem test_decode_rti : decode 0b1000_000000000000#16 = .rti := by decide
theorem test_decode_not : decode 0b1001_011_101_111111#16 = .not .r3 .r5 := by decide
theorem test_decode_ldi : decode 0b1010_001_000000010#16 = .ldi .r1 2#9 := by decide
theorem test_decode_sti : decode 0b1011_001_000000010#16 = .sti .r1 2#9 := by decide
theorem test_decode_jmp : decode 0b1100_000_111_000000#16 = .ret := by decide
theorem test_decode_res : decode 0b1101_000000000000#16 = .res := by decide
theorem test_decode_lea : decode 0b1110_000_000000110#16 = .lea .r0 6#9 := by decide
theorem test_decode_trap : decode 0b1111_0000_0010_0110#16 = .trap 0x26#8 := by decide
theorem test_decode_getc : decode 0b1111_0000_0010_0000#16 = .getc := by decide
theorem test_decode_out : decode 0b1111_0000_0010_0001#16 = .out := by decide
theorem test_decode_puts : decode 0b1111_0000_0010_0010#16 = .puts := by decide
theorem test_decode_inp : decode 0b1111_0000_0010_0011#16 = .inp := by decide
theorem test_decode_putsp : decode 0b1111_0000_0010_0100#16 = .putsp := by decide
theorem test_decode_halt : decode 0b1111_0000_0010_0101#16 = .halt := by decide

/-- The word 0x0000 is NOP (R90, R92). -/
theorem test_decode_zero_is_nop : decode 0x0000#16 = .nop := by decide
/-- Register fields at three different values, so that no two can be exchanged unseen. -/
theorem test_decode_keeps_the_fields_apart : decode 0b0001_011_101_0_00_110#16 = .addReg .r3 .r5 .r6 := by decide
/-- Unused bits (A8, A16, J3, J10, T10). -/
theorem test_decode_ignores_unused_bits :
    decode 0x1019#16 = decode 0x1001#16 ∧ decode 0x9280#16 = decode 0x92BF#16 ∧ decode 0xCE3F#16 = .jmp .r0 ∧
    decode 0x463F#16 = .jsrr .r0 ∧ decode 0xFF25#16 = .halt := by decide
/-- The canonical words of S4, S6 and S7. -/
theorem test_encode_words : encode (.addImm .r1 .r0 0x1D#5) = 0x123D#16 ∧ encode (.br 0b011#3 5#9) = 0x0605#16 ∧
    encode (.st .r1 15#9) = 0x320F#16 ∧ encode (.not .r1 .r2) = 0x92BF#16 := by decide

/-! ## Operands and flags (S1, S2, S3) -/

theorem test_sext : sext 0b11101#5 = 0xFFFD#16 ∧ sext 0b01101#5 = 0x000D#16 ∧ sext 0x100#9 = 0xFF00#16 ∧
    sext 0x0FF#9 = 0x00FF#16 ∧ sext 0x20#6 = 0xFFE0#16 ∧ sext 0x1F#6 = 0x001F#16 ∧ sext 0x400#11 = 0xFC00#16 ∧
    sext 0x3FF#11 = 0x03FF#16 := by decide
theorem test_swap : swap16 0x1234#16 = 0x3412#16 ∧ swap16 0x00FF#16 = 0xFF00#16 := by decide
theorem test_flags : condOf 0x0000#16 = 0b010#3 ∧ condOf 0x0001#16 = 0b001#3 ∧ condOf 0x7FFF#16 = 0b001#3 ∧
    condOf 0x8000#16 = 0b100#3 ∧ condOf 0xFFFF#16 = 0b100#3 := by decide

/-! ## One step each -/

/-- B4. -/
theorem test_br_taken_wraps : after (put 0xFFFF#16 0x0801#16 (withCond 0b100#3 State.reset)) (·.pc) = some 0x0001#16 := by
  decide
/-- B3. -/
theorem test_br_not_taken_before_the_first_flag : after (put 0x3000#16 0x0E05#16 State.reset) (·.pc) = some 0x3001#16 := by
  decide
/-- A3. -/
theorem test_addImm_overflow : after (put 0x3000#16 0x14A1#16 (with1 .r2 0x7FFF#16)) (fun t => (t.reg .r2, t.cond)) =
    some (0x8000#16, 0b100#3) := by decide
/-- A4: a source that is also the destination. -/
theorem test_addReg_carry : after (put 0x3000#16 0x16C3#16 (with1 .r3 0x8000#16)) (fun t => (t.reg .r3, t.cond)) =
    some (0x0000#16, 0b010#3) := by decide
/-- A10. -/
theorem test_andReg : after (put 0x3000#16 0x5401#16 (with2 .r0 0xF0F0#16 .r1 0xFF00#16)) (fun t => (t.reg .r2, t.cond)) =
    some (0xF000#16, 0b100#3) := by decide
/-- A13. -/
theorem test_andImm_sign_extends : after (put 0x3000#16 0x5270#16 (with1 .r1 0xABCD#16)) (fun t => (t.reg .r1, t.cond)) =
    some (0xABC0#16, 0b100#3) := by decide
/-- A14. -/
theorem test_not : after (put 0x3000#16 0x903F#16 (with1 .r0 0x002A#16)) (fun t => (t.reg .r0, t.cond)) =
    some (0xFFD5#16, 0b100#3) := by decide
/-- L3: the address wraps. -/
theorem test_ld_wraps : after (put 0xFFFF#16 0x2600#16 (State.reset.setCell 0x0000#16 0x8000#16))
    (fun t => (t.reg .r3, t.cond, t.pc)) = some (0x8000#16, 0b100#3, 0x0000#16) := by decide
/-- L8: LDI of the data register consumes. -/
theorem test_ldi_consumes_a_character : after (put 0x3000#16 0xA004#16 ((withKbq [0x41#8, 0x42#8] State.reset).setCell
    0x3005#16 0xFE02#16)) (fun t => (t.reg .r0, t.kbq, t.kbChar)) = some (0x0041#16, [0x42#8], 0x41#8) := by decide
/-- L7: LDI of the status register probes. -/
theorem test_ldi_probes : after (put 0x3000#16 0xA004#16 ((withKbq [0x41#8] State.reset).setCell 0x3005#16 0xFE00#16))
    (fun t => (t.reg .r0, t.kbq, t.kbChar)) = some (0x8000#16, [0x41#8], 0x41#8) := by decide
/-- L12: the base is also the destination. -/
theorem test_ldr_base_is_destination : after (put 0x3000#16 0x6240#16 (with1 .r1 0x4000#16))
    (fun t => (t.reg .r1, t.cond)) = some (0x0000#16, 0b010#3) := by decide
/-- L14. -/
theorem test_ldr_smallest_offset : after (put 0x3000#16 0x61E0#16 ((with1 .r7 0x0010#16).setCell 0xFFF0#16 0xFFFF#16))
    (fun t => (t.reg .r0, t.cond)) = some (0xFFFF#16, 0b100#3) := by decide
/-- L16. -/
theorem test_lea_sets_flags : after (put 0x9000#16 0xEBFF#16 State.reset) (fun t => (t.reg .r5, t.cond)) =
    some (0x9000#16, 0b100#3) := by decide
/-- S-2: the instruction overwrites itself. -/
theorem test_st_itself : after (put 0x3000#16 0x35FF#16 (with1 .r2 0xF025#16)) (fun t => (t.cell 0x3000#16, t.pc)) =
    some (0xF025#16, 0x3001#16) := by decide
/-- S-3: a store to the status register is ignored. -/
theorem test_st_device_ignored : after (put 0xFDFF#16 0x3000#16 (with1 .r0 0x1234#16))
    (fun t => (t.cell 0xFE00#16, t.pc)) = some (0x0000#16, 0xFE00#16) := by decide
/-- S-5. -/
theorem test_sti : after (put 0x3003#16 0xB202#16 ((with1 .r1 0x0048#16).setCell 0x3006#16 0x4000#16))
    (fun t => (t.cell 0x4000#16, t.cell 0x3006#16)) = some (0x0048#16, 0x4000#16) := by decide
/-- S-6: the character is neither consumed nor probed. -/
theorem test_sti_device_ignored : after (put 0x3000#16 0xB201#16 ((withKbq [0x41#8] (with1 .r1 0x0048#16)).setCell
    0x3002#16 0xFE02#16)) (fun t => (t.kbq, t.kbChar)) = some ([0x41#8], 0x00#8) := by decide
/-- S-10: the address wraps. -/
theorem test_str_wraps : after (put 0x3000#16 0x7FC1#16 (with1 .r7 0xFFFF#16)) (fun t => t.cell 0x0000#16) =
    some 0xFFFF#16 := by decide
/-- J2. -/
theorem test_jmp_ret : after (put 0x3007#16 0xC1C0#16 (with1 .r7 0x3002#16)) (·.pc) = some 0x3002#16 := by decide
/-- J5. -/
theorem test_jsr_smallest_offset : after (put 0x3000#16 0x4C00#16 State.reset) (fun t => (t.reg .r7, t.pc)) =
    some (0x3001#16, 0x2C01#16) := by decide
/-- J7. -/
theorem test_jsrr : after (put 0x3000#16 0x4080#16 (with1 .r2 0x3100#16)) (fun t => (t.reg .r7, t.pc)) =
    some (0x3001#16, 0x3100#16) := by decide
/-- J8: JSRR R7 falls through. -/
theorem test_jsrr_r7 : after (put 0x3000#16 0x41C0#16 (with1 .r7 0x5000#16)) (fun t => (t.reg .r7, t.pc)) =
    some (0x3001#16, 0x3001#16) := by decide
/-- T1. -/
theorem test_getc : after (put 0x3000#16 0xF020#16 (withKbq [0x41#8] (with1 .r0 0xFFFF#16)))
    (fun t => (t.reg .r0, t.kbq, t.kbChar, t.out)) = some (0x0041#16, [], 0x41#8, []) := by decide
/-- T17: no character, and the step stays open, PC being past the GETC. -/
theorem test_getc_waits : after (put 0x3000#16 0xF020#16 State.reset) (fun t => (t.waiting, t.engine, t.pc)) =
    some (some .getc, .running, 0x3001#16) := by decide
/-- T2. -/
theorem test_out : after (put 0x3000#16 0xF021#16 (with1 .r0 0x1248#16)) (·.out) = some [0x48#8] := by decide
/-- T4: a zero low byte is written. -/
theorem test_puts_low_bytes : after (put 0x3000#16 0xF022#16 (((with1 .r0 0x4000#16).setCell 0x4000#16 0x4100#16).setCell
    0x4001#16 0x0142#16)) (fun t => (t.out, t.reg .r0)) = some ([0x00#8, 0x42#8], 0x4000#16) := by decide
/-- T16: the string runs over the status register. -/
theorem test_puts_over_the_keyboard : after (put 0x3000#16 0xF022#16 ((withKbq [0x58#8] (with1 .r0 0xFDFF#16)).setCell
    0xFDFF#16 0x0041#16)) (fun t => (t.out, t.kbq, t.kbChar)) = some ([0x41#8, 0x00#8], [0x58#8], 0x58#8) := by decide
/-- T5, the prompt being whatever it is. -/
theorem test_in_echoes : after (put 0x3000#16 0xF023#16 (withKbq [0x7A#8, 0x7B#8] State.reset))
    (fun t => (t.out, t.reg .r0, t.kbq)) = some ([] ++ Config.inPrompt ++ [0x7A#8], 0x007A#16, [0x7B#8]) := rfl
/-- T6. -/
theorem test_putsp : after (put 0x3000#16 0xF024#16 ((((with1 .r0 0x4000#16).setCell 0x4000#16 0x6548#16).setCell 0x4001#16
    0x0079#16).setCell 0x4002#16 0x4141#16)) (·.out) = some [0x48#8, 0x65#8, 0x79#8] := by decide
/-- T7: a zero low byte ends the string at once. -/
theorem test_putsp_zero_low_byte : after (put 0x3000#16 0xF024#16 (((with1 .r0 0x4000#16).setCell 0x4000#16 0x4100#16).setCell
    0x4001#16 0x4242#16)) (·.out) = some [] := by decide
/-- T9. -/
theorem test_halt : after (put 0x3006#16 0xF025#16 (withCond 0b010#3 State.reset)) (fun t => (t.engine, t.pc, t.cond)) =
    some (.halted, 0x3007#16, 0b010#3) := by decide
/-- T12. -/
theorem test_trap_unlisted : after (put 0x3000#16 0xF0FF#16 (with1 .r0 1#16)) (fun t => (t.reg .r0, t.pc, t.engine)) =
    some (1#16, 0x3001#16, .running) := by decide
/-- X1. -/
theorem test_rti : after (put 0x3001#16 0x8000#16 (with1 .r0 1#16)) (fun t => (t.engine, t.pc)) =
    some (.faulted (.illegalOpcode 0x3001#16 8#4), 0x3002#16) := by decide
/-- X3: PC wraps, the record does not. -/
theorem test_rti_at_the_top : after (put 0xFFFF#16 0x8FFF#16 State.reset) (fun t => (t.engine, t.pc)) =
    some (.faulted (.illegalOpcode 0xFFFF#16 8#4), 0x0000#16) := by decide
/-- X2. -/
theorem test_res : after (put 0x0000#16 0xD123#16 State.reset) (fun t => (t.engine, t.pc)) =
    some (.faulted (.illegalOpcode 0x0000#16 13#4), 0x0001#16) := by decide

/-! ## The machine as a whole -/

/-- X4. -/
theorem test_step_in_halted_does_nothing :
    step { put 0x3000#16 0x1021#16 State.reset with engine := .halted } =
      .next { put 0x3000#16 0x1021#16 State.reset with engine := .halted } := rfl
/-- Z1. -/
theorem test_reset_executes_a_nop : step State.reset = .next { State.reset with pc := 0x0001#16, engine := .running } :=
  rfl
/-- Z1 with a character pending: the fetch at 0xFE00 is a status read and faults. -/
theorem test_fetch_at_the_status_register : after { withKbq [0x41#8] State.reset with pc := 0xFE00#16 } (·.engine) =
    some (.faulted (.illegalOpcode 0xFE00#16 8#4)) := by decide
/-- The host's two questions on one word. -/
theorem test_placed_word_runs : decodeTableWord 16 0x1021 = some (.addImm .r0 .r0 1#5) ∧
    after (State.reset.withFetchWord 16 0x1021) (fun t => (t.reg .r0, t.cond)) = some (0x0001#16, 0b001#3) := by decide
/-- A wait that a typed character ends. -/
theorem test_wait_ends : after { State.reset with engine := .running, waiting := some .getc, kbq := [0x41#8] }
    (fun t => (t.reg .r0, t.waiting)) = some (0x0041#16, none) := by decide

/-! ## Memory port, keyboard, loader -/

/-- K1, steps 1 and 2. -/
theorem test_k1_nothing_pending : memRead 0xFE00#16 State.reset = (0x0000#16, State.reset) ∧
    memRead 0xFE02#16 State.reset = (0x0000#16, State.reset) := by decide
/-- K1, steps 4 to 8. -/
theorem test_k1_probe_then_data :
    let s1 := (memRead 0xFE00#16 (withKbq [0x61#8] State.reset)).2
    let s2 := (memRead 0xFE02#16 s1).2
    (s1.kbq = [0x61#8] ∧ s1.kbChar = 0x61#8) ∧ (memRead 0xFE00#16 s1).1 = 0x8000#16 ∧
    (memRead 0xFE02#16 s1).1 = 0x0061#16 ∧ (memRead 0xFE00#16 s2).1 = 0x0000#16 ∧
    (memRead 0xFE02#16 s2).1 = 0x0061#16 := by decide
/-- K1, steps 15 and 16: 0xFE01 is an ordinary cell. -/
theorem test_k1_between_the_registers : (memRead 0xFE01#16 State.reset).1 = 0x0000#16 ∧
    (memRead 0xFE01#16 (memWrite 0xFE01#16 0xABCD#16 State.reset)).1 = 0xABCD#16 := by decide
/-- Characters that arrive between two reads (R70): the list of arrivals is read one list a moment. -/
theorem test_arrival_between_reads :
    let s := { State.reset with arrivals := [[], [0x61#8]] }
    (memRead 0xFE00#16 s).1 = 0x0000#16 ∧ (memRead 0xFE00#16 (memRead 0xFE00#16 s).2).1 = 0x8000#16 := by decide
/-- M1, and the canonical form: writing what an unlisted cell reads as removes the entry. -/
theorem test_memory_is_canonical : (memWrite 0x1234#16 0xBEEF#16 State.reset).mem = [(0x1234, 0xBEEF#16)] ∧
    (memWrite 0x1234#16 0x0000#16 (memWrite 0x1234#16 0xBEEF#16 State.reset)).mem = [] := by decide
/-- I2: byte order, and the trailing odd byte. -/
theorem test_load_odd_byte : loadImage (some [0x30#8, 0x00#8, 0x12#8, 0x3D#8, 0xF0#8]) State.reset =
    .loaded { State.reset with mem := [(0x3000, 0x123D#16)] } := by decide
/-- I4 and I8. -/
theorem test_load_errors : loadImage (some [0x30#8]) State.reset = .failed .truncated ∧
    loadImage none State.reset = .failed .unreadable := by decide
/-- I6: the load never wraps. -/
theorem test_load_at_the_top : loadImage (some [0xFF#8, 0xFF#8, 0x11#8, 0x11#8, 0x22#8, 0x22#8]) State.reset =
    .loaded { State.reset with mem := [(0xFFFF, 0x1111#16)] } := by decide
/-- I7: the words for the device addresses are dropped. -/
theorem test_load_over_the_devices : loadImage (some [0xFD#8, 0xFF#8, 0x00#8, 0x01#8, 0x00#8, 0x02#8, 0x00#8, 0x03#8, 0x00#8,
    0x04#8, 0x00#8, 0x05#8]) State.reset =
    .loaded { State.reset with mem := [(0xFDFF, 0x0001#16), (0xFE01, 0x0003#16), (0xFE03, 0x0005#16)] } := by decide
/-- S8 and R230: after the boot PC is the origin. -/
theorem test_boot : (Driver.boot [0x30#8, 0x00#8, 0x12#8, 0x3D#8] none).map (fun s => (s.pc, (fetch s).1)) =
    some (0x3000#16, 0x123D#16) := by decide
/-- R213: a preset of a device cell, and a set PC after Ready, are not allowed. -/
theorem test_moves_not_allowed : Driver.apply (.presetCell 0xFE00#16 1#16) .start = none ∧
    Driver.apply (.setPc 0x3000#16) ⟨running State.reset, .loaded⟩ = none := by decide
/-- U17: a second load is refused, and so is a load after the first step. -/
theorem test_load_once :
    Driver.applyAll [.load (some [0x30#8, 0x00#8]), .load (some [0x40#8, 0x00#8])] .start = none ∧
    Driver.applyAll [.step, .load (some [0x30#8, 0x00#8])] .start = none ∧
    Driver.applyAll [.load (some [0x30#8, 0x00#8]), .reset, .load (some [0x40#8, 0x00#8])] .start =
      some ⟨State.reset, .loaded⟩ := by decide
/-- I4: execution never starts after a failed load, until a reset. -/
theorem test_no_step_after_a_failed_load : Driver.applyAll [.load (some [0x30#8]), .step] .start = none ∧
    (Driver.applyAll [.load (some [0x30#8]), .reset, .step] .start).map (·.machine.pc) = some 0x0001#16 := by decide

/-! ## Witnesses: states and operands that meet the hypotheses of each statement that has some -/

theorem witness_DecodeOfEncodeIsTheInstruction : (Instr.ldr .r2 .r1 0x3F#6).wf = true ∧ (Instr.trap 0xFF#8).wf = true := by
  decide

/-- Each clause of UnusedBitsAreIgnored, with the highest word of its row. -/
theorem witness_UnusedBitsAreIgnored : 0x1FDF#16 &&& 0xF020#16 = 0x1000#16 ∧ 0x5FDF#16 &&& 0xF020#16 = 0x5000#16 ∧
    0x9FFF#16 &&& 0xF000#16 = 0x9000#16 ∧ 0xCFFF#16 &&& 0xF000#16 = 0xC000#16 ∧ 0x47FF#16 &&& 0xF800#16 = 0x4000#16 ∧
    0xFFFF#16 &&& 0xF000#16 = 0xF000#16 ∧ 0x8FFF#16 &&& 0xF000#16 = 0x8000#16 ∧
    0xDFFF#16 &&& 0xF000#16 = 0xD000#16 := by decide

/-- The narrowest and the widest field, with the top bit clear and set. -/
theorem witness_SignExtensionFillsWithTheTopBit : 1 ≤ 1 ∧ 16 ≤ 16 ∧
    (0#1).getLsbD (1 - 1) = false ∧ (1#1).getLsbD (1 - 1) = true ∧
    (0x7FFF#16).getLsbD (16 - 1) = false ∧ (0x8000#16).getLsbD (16 - 1) = true := by decide

/-- An instruction that sets the flags, and one that does not and is not BR. -/
theorem witness_OnlyResultsWriteCondAndOnlyBrReadsIt :
    (∃ t, exec (.lea .r0 6#9) State.reset = .next t) ∧ flagReg (.lea .r0 6#9) = some .r0 ∧
    (∃ t, exec (.st .r0 1#9) State.reset = .next t) ∧ flagReg (.st .r0 1#9) = none ∧
    ∀ nzp off, (Instr.st .r0 1#9) ≠ .br nzp off :=
  ⟨⟨_, rfl⟩, rfl, ⟨_, rfl⟩, rfl, nofun⟩

theorem witness_StepRunsTheDecodedInstruction :
    let s := put 0x3000#16 0x14A1#16 (with1 .r2 0x7FFF#16)
    s.engine.isTerminal = false ∧ s.waiting = none ∧
      decode (memRead s.pc { s with engine := .running }).1 = .addImm .r2 .r2 1#5 ∧ (Instr.addImm .r2 .r2 1#5).wf = true := by
  decide

/-- Each clause of HowEachInstructionAdvancesPc has a word: taken BR, JMP, JSR, JSRR with R2 and with R7, NOT. -/
theorem witness_HowEachInstructionAdvancesPc :
    (put 0x3000#16 0x0805#16 (withCond 0b100#3 State.reset)).engine.isTerminal = false ∧
    (put 0x3000#16 0x0805#16 (withCond 0b100#3 State.reset)).waiting = none ∧
    after (put 0x3000#16 0x0805#16 (withCond 0b100#3 State.reset)) (·.pc) = some 0x3006#16 ∧
    after (put 0x3000#16 0xC080#16 (with1 .r2 0x3010#16)) (·.pc) = some 0x3010#16 ∧
    after (put 0x3000#16 0x4BFF#16 State.reset) (·.pc) = some 0x3400#16 ∧
    after (put 0x3000#16 0x4080#16 (with1 .r2 0x3100#16)) (·.pc) = some 0x3100#16 ∧
    after (put 0xFFFF#16 0x41C0#16 State.reset) (·.pc) = some 0x0000#16 ∧
    after (put 0xFFFF#16 0x903F#16 State.reset) (·.pc) = some 0x0000#16 := by decide

theorem witness_OnlyReservedOpcodesFault :
    let s := put 0xFFFF#16 0xDFFF#16 State.reset
    s.engine.isTerminal = false ∧ s.waiting = none ∧ decode (fetch s).1 = .res := by decide

theorem witness_TerminalStatesDoNothing : { State.reset with engine := .halted }.engine = .halted ∧
    { State.reset with engine := .faulted (.illegalOpcode 0x3001#16 8#4) }.engine =
      .faulted (.illegalOpcode 0x3001#16 8#4) := by decide

theorem witness_FaultedIsReportedStickyAndFinal :
    let s : State := { State.reset with engine := .faulted (.illegalOpcode 0x3001#16 8#4), pc := 0x3002#16 }
    s.engine = .faulted (.illegalOpcode 0x3001#16 8#4) ∧
    Driver.Move.typeChar 0x41#8 ≠ .reset ∧ ∃ d, Driver.apply (.typeChar 0x41#8) ⟨s, .loaded⟩ = some d :=
  ⟨rfl, nofun, _, rfl⟩

theorem witness_HaltedIsReachedByHaltOnlyAndIsFinal :
    { State.reset with engine := .halted }.engine = .halted ∧ (put 0x3006#16 0xF025#16 State.reset).engine ≠ .halted ∧
    after (put 0x3006#16 0xF025#16 State.reset) (·.engine) = some .halted := by decide

theorem witness_EmptyMemoryIsWalkedThrough :
    let s := { State.reset with pc := 0xFFFF#16 }
    s.engine.isTerminal = false ∧ s.waiting = none ∧ (∀ a, s.cell a = 0x0000#16) ∧ s.kbq = [] ∧ s.arrivals = [] :=
  ⟨rfl, rfl, fun _ => rfl, rfl, rfl⟩

/-- A state past its first instructions that meets the invariant. -/
def midRun : State :=
  { State.reset with pc := 0x3000#16, cond := 0b001#3, engine := .running, mem := [(0x3000, 0x1021#16)], out := [0x48#8] }

theorem midRun_inv : midRun.Inv :=
  ⟨by decide, ⟨by decide, by decide⟩, .inr (.inr (.inr rfl)), nofun, nofun, fun _ => rfl⟩

theorem witness_StepKeepsTheInvariant : midRun.Inv ∧ ∃ t, step midRun = .next t := ⟨midRun_inv, _, rfl⟩

/-- Ordinary cells beside the devices preset, a step and a typed character, each in the middle of a run. -/
theorem witness_EveryMoveKeepsTheInvariant : midRun.Inv ∧
    (∃ d, Driver.apply (.presetCell 0xFE01#16 1#16) ⟨midRun, .loaded⟩ = some d) ∧
    (∃ d, Driver.apply .step ⟨midRun, .loaded⟩ = some d) ∧
    (∃ d, Driver.apply (.typeChar 0x41#8) ⟨midRun, .loaded⟩ = some d) :=
  ⟨midRun_inv, ⟨_, rfl⟩, ⟨_, rfl⟩, ⟨_, rfl⟩⟩

theorem witness_EveryReachableStateMeetsTheInvariant :
    ∃ d, Driver.applyAll [.reset, .load (some [0x30#8, 0x00#8, 0xF0#8, 0x20#8]), .setPc 0x3000#16, .step, .typeChar 0x41#8,
      .step] .start = some d := ⟨_, rfl⟩

theorem witness_OneFlagStaysOneFlag : midRun.condOneFlag ∧ ∃ t, step midRun = .next t := ⟨.inr (.inr rfl), _, rfl⟩

/-- For OutputOnlyGrows and OutputIsNeverRead: a step that writes, after something was written. -/
theorem witness_output :
    after { put 0x3000#16 0xF021#16 (with1 .r0 0x1248#16) with out := [0x41#8] } (·.out) = some [0x41#8, 0x48#8] := by decide

/-- Steps that consume one character: GETC with one to arrive, a fetch at 0xFE02, a GETC that goes on, LDI of 0xFE02. -/
theorem witness_InputIsFirstInFirstOut :
    after (put 0x3000#16 0xF020#16 { State.reset with arrivals := [[], [0x41#8, 0x42#8]] })
      (fun t => (t.inputToCome, t.kbChar)) = some ([0x42#8], 0x41#8) ∧
    after { withKbq [0x41#8] State.reset with pc := 0xFE02#16 } (fun t => (t.inputToCome, t.kbChar)) = some ([], 0x41#8) ∧
    after { withKbq [0x41#8] (running State.reset) with waiting := some .getc } (fun t => (t.inputToCome, t.kbChar)) =
      some ([], 0x41#8) ∧
    (let s := put 0x3000#16 0xA004#16 ((withKbq [0x41#8] State.reset).setCell 0x3005#16 0xFE02#16)
     (memRead (pcRelative 4#9 (fetch s).2) (fetch s).2).1 = kbdrAddr ∧
       after s (fun t => (t.inputToCome, t.kbChar)) = some ([], 0x41#8)) := by decide

theorem witness_CanonicalMemoriesThatReadTheSameAreEqual :
    let m : List Cell := [(0x3000, 0x1021#16), (0xFFFF, 0x0001#16)]
    Memory.wf m = true ∧ ∀ a, a < 65536 → readCells m a = readCells m a := ⟨by decide, fun _ _ => rfl⟩

/-- The ordinary addresses about the two registers. For the ordinary read and the ordinary write. -/
theorem witness_ordinary_addresses : Memory.wf midRun.mem = true ∧
    (0xFDFF#16 ≠ 0xFE00#16 ∧ 0xFDFF#16 ≠ 0xFE02#16) ∧ (0xFE01#16 ≠ 0xFE00#16 ∧ 0xFE01#16 ≠ 0xFE02#16) ∧
    (0xFE03#16 ≠ 0xFE00#16 ∧ 0xFE03#16 ≠ 0xFE02#16) ∧ (0xFFFF#16 ≠ 0xFE00#16 ∧ 0xFFFF#16 ≠ 0xFE02#16) := by decide

/-- Nothing pending, a character pending, and one that arrives at this read; for the status and both data statements. -/
theorem witness_keyboard : (pollInput State.reset).kbq = [] ∧
    (pollInput (withKbq [0x41#8] State.reset)).kbq = [0x41#8] ∧
    (pollInput { State.reset with arrivals := [[0x42#8]] }).kbq = [0x42#8] := by decide

/-- S-4's store, as STR. -/
theorem witness_StoreIsSeenByTheVeryNextFetch :
    let s := running { with2 .r0 0xF025#16 .r6 0x3002#16 with pc := 0x3001#16 }
    Memory.wf s.mem = true ∧ s.engine = .running ∧ s.waiting = none ∧ basePlus .r6 0x3F#6 s = s.pc ∧
      isDevice s.pc = false ∧ ∃ t, exec (.str .r0 .r6 0x3F#6) s = .next t :=
  ⟨by decide, rfl, rfl, by decide, by decide, _, rfl⟩

/-- Each form of AluReadsItsSourcesBeforeWritingDr with its result, sources and destination one register. -/
theorem witness_AluReadsItsSourcesBeforeWritingDr :
    let s := with1 .r3 0x8001#16
    (0x0002#16).toNat = ((s.reg .r3).toNat + (s.reg .r3).toNat) % 65536 ∧
    (0x8000#16).toNat = ((s.reg .r3).toNat + (sext 0x1F#5).toNat) % 65536 ∧
    (∀ k, (0x8001#16).getLsbD k = ((s.reg .r3).getLsbD k && (s.reg .r3).getLsbD k)) ∧
    (∀ k, (0x8000#16).getLsbD k = ((s.reg .r3).getLsbD k && (sext 0x10#5).getLsbD k)) ∧
    (0x7FFE#16).toNat = 0xFFFF - (s.reg .r3).toNat ∧
    decode 0x14B0#16 = .addImm .r2 .r2 0x10#5 ∧ decode 0x54B0#16 = .andImm .r2 .r2 0x10#5 := by
  refine ⟨by decide, by decide, fun k => ?_, fun k => ?_, by decide, by decide, by decide⟩
  · exact congrArg (BitVec.getLsbD · k) (show 0x8001#16 = 0x8001#16 &&& 0x8001#16 by decide)
      |>.trans (BitVec.getLsbD_and ..)
  · exact congrArg (BitVec.getLsbD · k) (show 0x8000#16 = 0x8001#16 &&& sext 0x10#5 by decide)
      |>.trans (BitVec.getLsbD_and ..)

/-- Each flag alone, as the flag update leaves it, and none. -/
theorem witness_BrAddsTheOffsetWhenTheMaskMeetsCond : (withCond 0b100#3 State.reset).cond = condN ∧
    (withCond 0b010#3 State.reset).cond = condZ ∧ (withCond 0b001#3 State.reset).cond = condP ∧
    State.reset.cond = 0b000#3 := by decide

/-- Both modes: no carry at the largest sum, a carry at the smallest, and two positive numbers with a negative sum. -/
theorem witness_AddDropsTheCarryAndFlagsTheStoredSum :
    (0xFFFF#16 = (with1 .r3 0xFFFF#16).reg .r3 ∧ 0x0000#16 = (with1 .r3 0xFFFF#16).reg .r1 ∧ 0xFFFF#16 = sext 0x1F#5) ∧
    (0xFFFF#16).toNat + (0#16).toNat < 65536 ∧ 65536 ≤ (0xFFFF#16).toNat + (1#16).toNat ∧
    (0x7FFF#16).toNat ≤ 0x7FFF ∧ (1#16).toNat ≤ 0x7FFF ∧ 0x7FFF < (0x7FFF#16).toNat + (1#16).toNat := by decide

theorem witness_LoadsWriteDrAndTheFlags : decode 0x2E07#16 = .ld .r7 7#9 ∧ decode 0xAE02#16 = .ldi .r7 2#9 ∧
    decode 0x6E7F#16 = .ldr .r7 .r1 0x3F#6 ∧ decode 0xEE06#16 = .lea .r7 6#9 := by decide

/-- S7: L = 0x3010, A = 0x4000. -/
theorem witness_LdiThroughAStoredAddressYieldsItsContent :
    let s := { (with1 .r1 0x4000#16).setCell 0x4000#16 0xBEEF#16 with pc := 0x3001#16 }
    Memory.wf s.mem = true ∧ isDevice (s.pc + sext 15#9) = false ∧ isDevice (s.reg .r1) = false ∧
      s.reg .r1 ≠ s.pc + sext 15#9 ∧ (∃ t, exec (.st .r1 15#9) s = .next t) ∧
      0x3002#16 + sext 14#9 = s.pc + sext 15#9 :=
  ⟨by decide, by decide, by decide, by decide, ⟨_, rfl⟩, by decide⟩

/-- ST, STI and STR at an ordinary address, and STI at the data register. -/
theorem witness_StoresWriteOneCellAndNothingElse :
    let s := { ((with1 .r6 0x4000#16).setCell 0x3002#16 0xFE02#16) with pc := 0x3001#16 }
    Memory.wf s.mem = true ∧ 0x3002#16 = s.pc + sext 1#9 ∧ 0xFE02#16 = (memRead (s.pc + sext 1#9) s).1 ∧
      0x3FFF#16 = s.reg .r6 + sext 0x3F#6 ∧ decode 0x3E01#16 = .st .r7 1#9 ∧ decode 0xBE02#16 = .sti .r7 2#9 ∧
      decode 0x7FBF#16 = .str .r7 .r6 0x3F#6 := by decide

theorem witness_TrapSelectsTheServiceOfItsVector : (0x1F#8).toNat < 0x20 ∧ 0x25 < (0x26#8).toNat := by decide

/-- An outcome is a next state. -/
def isNext : Host.Outcome State Fault Refusal → Bool
  | .next _ => true
  | .fault _ => false
  | .refused _ => false

/-- Every service completes somewhere. -/
theorem witness_ServicesWriteNoRegisterButR0 :
    isNext (exec .getc State.reset) = true ∧ isNext (exec .out State.reset) = true ∧
    isNext (exec .puts State.reset) = true ∧ isNext (exec .inp State.reset) = true ∧
    isNext (exec .putsp State.reset) = true ∧ isNext (exec .halt State.reset) = true ∧
    isNext (exec (.trap 0xFF#8) State.reset) = true := by decide

/-- A character pending, and one still to arrive; for GETC and for IN. -/
theorem witness_next_character : (withKbq [0x41#8, 0x42#8] State.reset).inputToCome = [0x41#8, 0x42#8] ∧
    { State.reset with arrivals := [[], [0x41#8]] }.inputToCome = [0x41#8] := by decide

theorem witness_ServicesWaitWhileNoCharacterComes :
    let s : State := { State.reset with engine := .running, waiting := some .inp, arrivals := [[], []] }
    s.inputToCome = [] ∧ s.engine = .running ∧ s.waiting = some .inp := by decide

theorem witness_ArrivalEndsTheWaitAsIfPending :
    (running State.reset).kbq = [] ∧ (running State.reset).arrivals = [] ∧ (running State.reset).engine = .running ∧
      (running State.reset).waiting = none := by decide

/-- A string at 0xFDFF of one word `w`, which runs on over 0xFE00, the characters `q` pending. -/
def overStatus (w : Word) (q : List Byte) : State := withKbq q ((with1 .r0 0xFDFF#16).setCell 0xFDFF#16 w)
/-- A string that starts at 0xFE02, with one character pending. -/
def overData : State := withKbq [0x58#8] (with1 .r0 0xFE02#16)

/-- Strings over the device registers: T16's with a character pending, which reads 0x8000 at 0xFE00, and without one, which
ends there; and one from 0xFE02 on, which consumes a character. -/
theorem witness_puts_over_the_keyboard :
    (readsFrom 2 0xFDFF#16 (overStatus 0x0041#16 [0x58#8]) =
        ([0x0041#16, 0x8000#16], { overStatus 0x0041#16 [0x58#8] with kbChar := 0x58#8 }) ∧
      memRead (0xFDFF#16 + BitVec.ofNat 16 2) { overStatus 0x0041#16 [0x58#8] with kbChar := 0x58#8 } =
        (0x0000#16, { overStatus 0x0041#16 [0x58#8] with kbChar := 0x58#8 })) ∧
    (readsFrom 1 0xFDFF#16 (overStatus 0x0041#16 []) = ([0x0041#16], overStatus 0x0041#16 []) ∧
      memRead (0xFDFF#16 + BitVec.ofNat 16 1) (overStatus 0x0041#16 []) = (0x0000#16, overStatus 0x0041#16 [])) ∧
    (readsFrom 1 0xFE02#16 overData = ([0x0058#16], { overData with kbq := [], kbChar := 0x58#8 }) ∧
      memRead (0xFE02#16 + BitVec.ofNat 16 1) { overData with kbq := [], kbChar := 0x58#8 } =
        (0x0000#16, { overData with kbq := [], kbChar := 0x58#8 })) :=
  ⟨⟨rfl, rfl⟩, ⟨rfl, rfl⟩, rfl, rfl⟩

/-- For PUTSP's first clause: the status word has a zero low byte, and a character from 0xFE02 a zero high byte; the word
before them has two characters. -/
theorem witness_putsp_over_the_keyboard :
    (readsFrom 1 0xFDFF#16 (overStatus 0x4241#16 [0x58#8]) = ([0x4241#16], overStatus 0x4241#16 [0x58#8]) ∧
      memRead (0xFDFF#16 + BitVec.ofNat 16 1) (overStatus 0x4241#16 [0x58#8]) =
        (0x8000#16, { overStatus 0x4241#16 [0x58#8] with kbChar := 0x58#8 })) ∧
    (readsFrom 0 0xFE02#16 overData = ([], overData) ∧
      memRead (0xFE02#16 + BitVec.ofNat 16 0) overData = (0x0058#16, { overData with kbq := [], kbChar := 0x58#8 })) :=
  ⟨⟨rfl, rfl⟩, rfl, rfl⟩

/-- The words of the two witnesses before: which are not zero, and which end a packed string. -/
theorem witness_words_over_the_keyboard :
    (overStatus 0x0041#16 []).reg .r0 = 0xFDFF#16 ∧ overData.reg .r0 = 0xFE02#16 ∧
    (∀ w ∈ [0x0041#16, 0x8000#16, 0x0058#16], w ≠ 0x0000#16) ∧
    ((0x4241#16).extractLsb' 0 8 ≠ 0x00#8 ∧ (0x4241#16).extractLsb' 8 8 ≠ 0x00#8) ∧ (0x8000#16).extractLsb' 0 8 = 0x00#8 ∧
    (0x0058#16).extractLsb' 0 8 ≠ 0x00#8 ∧ (0x0058#16).extractLsb' 8 8 = 0x00#8 :=
  ⟨by decide, by decide, by simp, by decide, by decide, by decide, by decide⟩

/-- An empty string, and T14's, which goes around the top of the address space. -/
theorem witness_PutsWritesTheLowBytesUpToAZeroWord :
    (isDevice (State.reset.reg .r0 + BitVec.ofNat 16 0) = false ∧
      State.reset.cell (State.reset.reg .r0 + BitVec.ofNat 16 0) = 0x0000#16) ∧
    let s := ((with1 .r0 0xFFFF#16).setCell 0xFFFF#16 0x0041#16).setCell 0x0000#16 0x0042#16
    (∀ k, k ≤ 2 → isDevice (s.reg .r0 + BitVec.ofNat 16 k) = false) ∧
      (∀ k, k < 2 → s.cell (s.reg .r0 + BitVec.ofNat 16 k) ≠ 0x0000#16) ∧
      s.cell (s.reg .r0 + BitVec.ofNat 16 2) = 0x0000#16 := by decide

/-- T6's string, ended by a zero high byte, and T8's, ended by a zero low byte. -/
theorem witness_PutspWritesTwoBytesAWordUpToAZeroByte :
    let s := ((with1 .r0 0x4000#16).setCell 0x4000#16 0x6548#16).setCell 0x4001#16 0x0079#16
    let u := (with1 .r0 0x4000#16).setCell 0x4000#16 0x6948#16
    (∀ k, k ≤ 1 → isDevice (s.reg .r0 + BitVec.ofNat 16 k) = false) ∧
    (∀ k, k < 1 → (s.cell (s.reg .r0 + BitVec.ofNat 16 k)).extractLsb' 0 8 ≠ 0x00#8 ∧
      (s.cell (s.reg .r0 + BitVec.ofNat 16 k)).extractLsb' 8 8 ≠ 0x00#8) ∧
    ((s.cell (s.reg .r0 + BitVec.ofNat 16 1)).extractLsb' 0 8 ≠ 0x00#8 ∧
      (s.cell (s.reg .r0 + BitVec.ofNat 16 1)).extractLsb' 8 8 = 0x00#8) ∧
    (∀ k, k < 1 → (u.cell (u.reg .r0 + BitVec.ofNat 16 k)).extractLsb' 0 8 ≠ 0x00#8 ∧
      (u.cell (u.reg .r0 + BitVec.ofNat 16 k)).extractLsb' 8 8 ≠ 0x00#8) ∧
    (u.cell (u.reg .r0 + BitVec.ofNat 16 1)).extractLsb' 0 8 = 0x00#8 := by decide

/-- Both reserved instructions, at the bottom of the address space too. -/
theorem witness_RtiAndResTakeTheFault : (Instr.rti = .rti ∧ 8#4 = 8#4) ∧ (Instr.res = .res ∧ 13#4 = 13#4) ∧
    { State.reset with pc := 0x0000#16 }.pc = 0xFFFF#16 + 1#16 := by decide

/-- GETC that waits: R0, which it would write, keeps the other value. -/
theorem witness_registers_of_a_waiting_service : Instr.getc.wf = true ∧ State.reset.waiting = none ∧
    (∃ t, exec .getc State.reset = .next t ∧ t.waiting ≠ none) ∧ .r0 ∉ regsRead .getc ∧ regWritten .getc = some .r0 :=
  ⟨rfl, rfl, ⟨_, rfl, nofun⟩, by decide, rfl⟩

/-- JSRR R7, which reads no register but writes R7, and R0 that it does not touch. -/
theorem witness_RegistersReadAndWrittenAreThoseOfTheTable : (Instr.jsrr .r7).wf = true ∧ State.reset.waiting = none ∧
    (∃ t, exec (.jsrr .r7) State.reset = .next t ∧ t.waiting = none) ∧ regWritten (.jsrr .r7) = some .r7 ∧
    .r7 ∉ regsRead (.jsrr .r7) ∧ regWritten (.jsrr .r7) ≠ some .r0 :=
  ⟨rfl, rfl, ⟨_, rfl, rfl⟩, rfl, by decide, by decide⟩

/-- Short sources, and bodies at the origin 0xFFFF, where one word fits; for the loader's statements. -/
theorem witness_loader : [0x30#8].length < 2 ∧ Memory.wf State.reset.mem = true ∧
    (∃ t, loadImage (some [0xFF#8, 0xFF#8, 0x11#8, 0x11#8, 0x22#8]) State.reset = .loaded t) ∧
    [0x11#8, 0x11#8].length % 2 = 0 ∧ [0x11#8, 0x11#8].length = 2 * (65536 - ((0xFF#8).toNat * 256 + (0xFF#8).toNat)) ∧
    isDevice (BitVec.ofNat 16 (0xFFFF + 0)) = false ∧ isDevice (BitVec.ofNat 16 (0xFE02 + 0)) = true :=
  ⟨by decide, by decide, ⟨_, rfl⟩, by decide, by decide, by decide, by decide⟩

theorem witness_BootedImageIsFetchedFromItsOrigin : isDevice (0x30#8 ++ 0x00#8) = false ∧
    isDevice (0xFF#8 ++ 0xFF#8) = false := by decide

theorem witness_StoppingLosesNothing : State.reset.betweenSteps = true ∧
    (∃ t, Driver.drive (List.replicate 2 true) State.reset = .next t) ∧
    { State.reset with engine := .halted }.engine.isTerminal = true :=
  ⟨rfl, ⟨_, rfl⟩, rfl⟩

theorem witness_AnImageIsLoadedOnceBeforeTheFirstStep :
    (running State.reset).engine ≠ .ready ∧ Driver.Image.failed .truncated ≠ .notYet ∧ State.reset.engine = .ready ∧
    (∃ t, loadImage (some [0x30#8, 0x00#8]) State.reset = .loaded t) ∧
    loadImage (some [0x30#8]) State.reset = .failed .truncated ∧
    Driver.Move.typeChar 0x41#8 ≠ .reset ∧
    ∃ d, Driver.apply (.typeChar 0x41#8) ⟨State.reset, .failed .truncated⟩ = some d :=
  ⟨nofun, nofun, rfl, ⟨_, rfl⟩, rfl, nofun, _, rfl⟩

end Sys2Proof.Tests
end

/-! ## Operands: sign and zero extension, the byte exchange (spec/00_scope.md R8, R9, R10)

Both extensions are read bit by bit or by value; the byte exchange is read through the two halves of its result. -/

namespace Sys2Proof.Machine

open Sys2Proof

section Extension

variable {n : Nat} (v : BitVec n)

theorem getLsbD_sext_of_lt {k : Nat} (hn : n ≤ 16) (hk : k < n) : (sext v).getLsbD k = v.getLsbD k := by
  have hk16 : k < 16 := by omega
  rw [sext, BitVec.getLsbD_signExtend]
  simp [hk, hk16]

theorem getLsbD_sext_of_le {k : Nat} (hk : n ≤ k) (hk16 : k < 16) : (sext v).getLsbD k = v.msb := by
  have hnk : ¬ k < n := by omega
  rw [sext, BitVec.getLsbD_signExtend]
  simp [hnk, hk16]

theorem toNat_zext (hn : n ≤ 16) : (zext v).toNat = v.toNat :=
  BitVec.toNat_setWidth_of_le hn

theorem sext_eq_zext (hv : v.msb = false) : sext v = zext v :=
  BitVec.signExtend_eq_setWidth_of_msb_false hv

/-- A negative field stands for its value less 2^n, which is 65536 - 2^n above its value modulo 65536. -/
theorem toNat_sext_of_msb (hn : n ≤ 16) (hv : v.msb = true) : (sext v).toNat = v.toNat + 65536 - 2 ^ n := by
  have hpow : 2 ^ n ≤ 2 ^ 16 := Nat.pow_le_pow_right (by decide) hn
  have hsum : (sext v).toNat = (zext v).toNat + (2 ^ 16 - 2 ^ n) := by
    simp [sext, zext, BitVec.toNat_signExtend, hv]
  rw [hsum, toNat_zext v hn]
  omega

/-- Extension loses nothing: the field is the low bits of its extension. -/
theorem extractLsb'_sext (hn : n ≤ 16) : (sext v).extractLsb' 0 n = v := by
  refine BitVec.eq_of_getLsbD_eq fun k hk => ?_
  simp [hk, getLsbD_sext_of_lt v hn hk]

end Extension

@[simp] theorem lowByte_swap16 (v : Word) : lowByte (swap16 v) = highByte v :=
  BitVec.extractLsb'_append_eq_right

@[simp] theorem highByte_swap16 (v : Word) : highByte (swap16 v) = lowByte v :=
  BitVec.extractLsb'_append_eq_left

theorem highByte_append_lowByte (v : Word) : highByte v ++ lowByte v = v :=
  (BitVec.extractLsb'_append_extractLsb'_eq_extractLsb' rfl).trans BitVec.extractLsb'_eq_self

/-- A word put together from two bytes is the upper one shifted by eight, or the lower one (R10's formula). -/
theorem append_eq_zext_shiftLeft_or_zext (hi lo : Byte) : hi ++ lo = (zext hi <<< 8) ||| zext lo := by
  rw [BitVec.append_def, BitVec.shiftLeftZeroExtend_eq, BitVec.setWidth'_eq]
  rfl

/-- Settles O7: each clause is the law of that name above, with the top bit of the field read as its `msb`; the last says
that extending the field again starts from the same field. -/
theorem signExtensionFillsWithTheTopBit : Obligations.SignExtensionFillsWithTheTopBit := by
  intro n _ hn v
  rw [← BitVec.msb_eq_getLsbD_last]
  refine ⟨fun k hk => getLsbD_sext_of_lt v hn hk, fun k hk hk16 => getLsbD_sext_of_le v hk hk16,
    fun hv => ⟨?_, sext_eq_zext v hv⟩, fun hv => toNat_sext_of_msb v hn hv, ?_⟩
  · rw [sext_eq_zext v hv, toNat_zext v hn]
  · rw [extractLsb'_sext v hn]

/-- Settles O8: the swapped word is put together from the exchanged bytes, and exchanging the two bytes of that word puts
the first word together again. -/
theorem zeroExtensionAndByteSwap : Obligations.ZeroExtensionAndByteSwap := by
  refine ⟨fun b => toNat_zext b (by decide), fun v => append_eq_zext_shiftLeft_or_zext (lowByte v) (highByte v),
    fun v => ?_⟩
  calc swap16 (swap16 v) = lowByte (swap16 v) ++ highByte (swap16 v) := rfl
    _ = highByte v ++ lowByte v := by rw [lowByte_swap16, highByte_swap16]
    _ = v := highByte_append_lowByte v

end Sys2Proof.Machine

/-! ## The step and the effect of an instruction (spec/10_state.md R28)

What a step is in each of its three cases, and what an instruction that answers a next state can have done: one of eight
effects, each with the register it writes, the register its flags are of, and whether it writes PC. The statements about
one run (the invariant, COND, PC, the output, the registers left alone) are read off the effect. -/

namespace Sys2Proof.Machine

open Sys2Proof

/-! ### The step -/

theorem step_terminal {s : State} (h : s.engine.isTerminal = true) : step s = .next s := by
  simp [step, h]

theorem step_waiting {s : State} {w : Waiting} (h : s.engine.isTerminal = false) (hw : s.waiting = some w) :
    step s = .next (resumeService w s) := by
  simp [step, h, hw]

theorem step_fetching {s : State} (h : s.engine.isTerminal = false) (hw : s.waiting = none) :
    step s = exec (decode (fetch s).1) (fetch s).2 := by
  simp [step, h, hw]

/-- The three ways in which a step answers a next state. -/
theorem step_cases {s t : State} (h : step s = .next t) :
    (s.engine.isTerminal = true ∧ t = s) ∨
    (∃ w, s.engine.isTerminal = false ∧ s.waiting = some w ∧ t = resumeService w s) ∨
    (s.engine.isTerminal = false ∧ s.waiting = none ∧ exec (decode (fetch s).1) (fetch s).2 = .next t) := by
  cases he : s.engine.isTerminal with
  | true =>
    rw [step_terminal he] at h
    exact .inl ⟨rfl, (Host.Outcome.next.inj h).symm⟩
  | false =>
    cases hw : s.waiting with
    | some w =>
      rw [step_waiting he hw] at h
      exact .inr (.inl ⟨w, rfl, rfl, (Host.Outcome.next.inj h).symm⟩)
    | none =>
      rw [step_fetching he hw] at h
      exact .inr (.inr ⟨rfl, rfl, h⟩)

/-- Settles O14: both states are terminal. -/
theorem terminalStatesDoNothing : Obligations.TerminalStatesDoNothing := by
  rintro s (h | ⟨reason, h⟩) <;> exact step_terminal (by rw [h]; rfl)

/-- Settles O11: with no step open and the engine not terminal, a step is the fetch and then the decoded instruction. -/
theorem stepRunsTheDecodedInstruction : Obligations.StepRunsTheDecodedInstruction := by
  rintro s i he hw rfl -
  exact step_fetching he hw

/-! ### TRAP with the vector of a service -/

/-- A vector is one of the six services', or TRAP is well formed with it (R160). -/
theorem serviceVector_or_wf (v : BitVec 8) :
    (v = 0x20#8 ∨ v = 0x21#8 ∨ v = 0x22#8 ∨ v = 0x23#8 ∨ v = 0x24#8 ∨ v = 0x25#8) ∨ (Instr.trap v).wf = true := by
  by_cases h : v ∈ serviceVectors
  · exact .inl (by simpa [serviceVectors] using h)
  · exact .inr (by simpa [Instr.wf] using h)

/-- The number of the vector of a well-formed TRAP is no service code (R160). -/
theorem toNat_of_trap_wf {v : BitVec 8} (h : (Instr.trap v).wf = true) :
    v.toNat ≠ 0x20 ∧ v.toNat ≠ 0x21 ∧ v.toNat ≠ 0x22 ∧ v.toNat ≠ 0x23 ∧ v.toNat ≠ 0x24 ∧ v.toNat ≠ 0x25 := by
  simp only [Instr.wf, serviceVectors, Bool.not_eq_true', List.contains_eq_mem, decide_eq_false_iff_not,
    List.mem_cons, List.not_mem_nil, or_false, not_or, ← BitVec.toNat_inj] at h
  exact h

theorem trapInstr_of_wf {v : BitVec 8} (h : (Instr.trap v).wf = true) : trapInstr v = .trap v := by
  have hv := toNat_of_trap_wf h
  unfold trapInstr
  split <;> simp_all

/-- A well-formed TRAP has no effect (R171, log 3). -/
theorem exec_trap_of_wf {v : BitVec 8} (h : (Instr.trap v).wf = true) (s : State) : exec (.trap v) s = .next s := by
  have hv := toNat_of_trap_wf h
  simp only [exec, execTrap]
  split <;> simp_all [unknownTrap]

/-! ### A service that waits or goes on, field by field (R161, R163) -/

@[simp] theorem resumeService_pc (w : Waiting) (s : State) : (resumeService w s).pc = s.pc := by
  obtain ⟨hpc, -⟩ := resumeService_frame w s
  exact hpc

@[simp] theorem resumeService_cond (w : Waiting) (s : State) : (resumeService w s).cond = s.cond := by
  obtain ⟨-, hcond, -⟩ := resumeService_frame w s
  exact hcond

@[simp] theorem resumeService_engine (w : Waiting) (s : State) : (resumeService w s).engine = s.engine := by
  obtain ⟨-, -, hengine, -⟩ := resumeService_frame w s
  exact hengine

@[simp] theorem resumeService_mem (w : Waiting) (s : State) : (resumeService w s).mem = s.mem := by
  obtain ⟨-, -, -, hmem, -⟩ := resumeService_frame w s
  exact hmem

theorem resumeService_reg_ne (w : Waiting) (s : State) {r : Reg} (hr : r ≠ .r0) :
    (resumeService w s).reg r = s.reg r := by
  obtain ⟨-, -, -, -, hregs, -⟩ := resumeService_frame w s
  exact hregs r hr

theorem resumeService_out_prefix (w : Waiting) (s : State) : s.out <+: (resumeService w s).out := by
  obtain ⟨-, -, -, -, -, hout, -⟩ := resumeService_frame w s
  exact hout

theorem resumeService_regs_of_waiting {w : Waiting} {s : State} (h : (resumeService w s).waiting ≠ none) :
    (resumeService w s).regs = s.regs := by
  rcases resumeService_cases w s with ⟨c, -, hnone, -⟩ | ⟨-, hwait⟩
  · exact absurd hnone h
  · rw [hwait]

/-! ### The effects -/

/-- The instructions that write PC after the fetch (R22). -/
def writesPc : Instr → Bool
  | .br _ _ => true
  | .jmp _ => true
  | .jsr _ => true
  | .jsrr _ => true
  | _ => false

/-- The constructor of its own that TRAP with a listed vector stands for; any other instruction as it is (log 19). -/
def canon : Instr → Instr
  | .trap v => trapInstr v
  | i => i

/-- `canon` gives a well-formed instruction with the same effect on every state. -/
theorem canon_spec (i : Instr) : (canon i).wf = true ∧ (∀ s, exec (canon i) s = exec i s) ∧
    flagReg (canon i) = flagReg i ∧ writesPc (canon i) = writesPc i := by
  cases i with
  | trap v =>
    rcases serviceVector_or_wf v with hv | hwf
    · rcases hv with rfl | rfl | rfl | rfl | rfl | rfl <;> exact ⟨rfl, fun _ => rfl, rfl, rfl⟩
    · rw [canon, trapInstr_of_wf hwf]
      exact ⟨hwf, fun _ => rfl, rfl, rfl⟩
  | _ => exact ⟨rfl, fun _ => rfl, rfl, rfl⟩

theorem canon_eq_br {i : Instr} {nzp : BitVec 3} {off : BitVec 9} (h : canon i = .br nzp off) : i = .br nzp off := by
  cases i with
  | trap v =>
    simp only [canon, trapInstr] at h
    split at h <;> cases h
  | _ => exact h

theorem SameButStreams.refl (s : State) : SameButStreams s s where
  regs := rfl
  pc := rfl
  cond := rfl
  engine := rfl
  mem := rfl
  waiting := rfl
  out := List.prefix_refl _
  input := List.suffix_refl _

theorem SameButStreams.prompt (bs : List Byte) (s : State) : SameButStreams s { s with out := s.out ++ bs } where
  regs := rfl
  pc := rfl
  cond := rfl
  engine := rfl
  mem := rfl
  waiting := rfl
  out := List.prefix_append _ _
  input := List.suffix_refl _

theorem SameButStreams.reg {s t : State} (h : SameButStreams s t) (r : Reg) : t.reg r = s.reg r := reg_of_regs h.regs r

/-- What a well-formed instruction can do to `s`, by the register it writes, the register its flags are of, and whether it
writes PC. A state between `s` and the last write differs from `s` in the streams only, as reads leave it. -/
inductive Effect (s : State) : (written flags : Option Reg) → (pcWritten : Bool) → State → Prop
  /-- ADD, AND, NOT, LEA, and the loads after their reads. -/
  | result {m : State} (dr : Reg) (v : Word) (hm : SameButStreams s m) :
      Effect s (some dr) (some dr) false (m.setRegCC dr v)
  /-- ST, STR, and STI after its read. -/
  | store {m : State} (a v : Word) (hm : SameButStreams s m) : Effect s none none false (memWrite a v m)
  /-- BR, taken or not, and JMP. -/
  | jump (a : Word) : Effect s none none true (s.setPc a)
  /-- JSR in both modes. -/
  | call (a : Word) : Effect s (some .r7) none true ((saveReturn s).setPc a)
  /-- OUT, PUTS, PUTSP, and TRAP with an unlisted vector. -/
  | streams {t : State} (ht : SameButStreams s t) : Effect s none none false t
  /-- GETC, and IN after its prompt. -/
  | service {m : State} (w : Waiting) (hm : SameButStreams s m) :
      Effect s (some .r0) none false (resumeService w m)
  /-- HALT. -/
  | halt : Effect s none none false (s.setEngine .halted)
  /-- RTI and RES. -/
  | fault (op : BitVec 4) (hop : op = opcodeValue .rti ∨ op = opcodeValue .res) :
      Effect s none none false (raiseIllegalOpcode op s)

/-- Every well-formed instruction has one of the effects, with the registers of the tables of R38 and R26. -/
theorem exec_effect {i : Instr} {s t : State} (hi : i.wf = true) (h : exec i s = .next t) :
    Effect s (regWritten i) (flagReg i) (writesPc i) t := by
  cases i with
  | br nzp off =>
    simp only [exec, execBr] at h
    split at h
    · cases h; exact .jump _
    · cases h; exact .jump s.pc
  | addReg dr sr1 sr2 => cases h; exact .result dr _ (.refl s)
  | addImm dr sr1 imm => cases h; exact .result dr _ (.refl s)
  | andReg dr sr1 sr2 => cases h; exact .result dr _ (.refl s)
  | andImm dr sr1 imm => cases h; exact .result dr _ (.refl s)
  | not dr sr => cases h; exact .result dr _ (.refl s)
  | lea dr off => cases h; exact .result dr _ (.refl s)
  | ld dr off => cases h; exact .result dr _ (.read _ s)
  | ldr dr base off => cases h; exact .result dr _ (.read _ s)
  | ldi dr off => cases h; exact .result dr _ ((SameButStreams.read _ s).trans (.read _ _))
  | st sr off => cases h; exact .store _ _ (.refl s)
  | str sr base off => cases h; exact .store _ _ (.refl s)
  | sti sr off => cases h; exact .store _ _ (.read _ s)
  | jmp base => cases h; exact .jump _
  | jsr off => cases h; exact .call _
  | jsrr base => cases h; exact .call _
  | rti => cases h; exact .fault _ (.inl rfl)
  | res => cases h; exact .fault _ (.inr rfl)
  | trap v =>
    rw [exec_trap_of_wf hi] at h
    cases h; exact .streams (.refl s)
  | getc => cases h; exact .service .getc (.refl s)
  | out => cases h; exact .streams (.byte _ s)
  | puts => exact .streams (servicePuts_same h)
  | inp => cases h; exact .service .inp (.prompt _ s)
  | putsp => exact .streams (servicePutsp_same h)
  | halt => cases h; exact .halt

/-- As `exec_effect`, for any instruction: a TRAP with a listed vector has the effect of its service. -/
theorem exec_effect_canon {i : Instr} {s t : State} (h : exec i s = .next t) :
    ∃ written, Effect s written (flagReg i) (writesPc i) t := by
  obtain ⟨hwf, hexec, hflag, hpc⟩ := canon_spec i
  rw [← hexec] at h
  exact ⟨_, hflag ▸ hpc ▸ exec_effect hwf h⟩

/-! ### What can be read off an effect -/

namespace Effect

variable {s t : State} {written flags : Option Reg} {pcWritten : Bool}

/-- The output only grows (R33). -/
theorem out_prefix (h : Effect s written flags pcWritten t) : s.out <+: t.out := by
  cases h with
  | result dr v hm => exact hm.out
  | store a v hm => rw [memWrite_out]; exact hm.out
  | streams ht => exact ht.out
  | service w hm => exact hm.out.trans (resumeService_out_prefix w _)
  | jump | call | halt | fault => exact List.prefix_refl _

/-- Without a result COND stays (R26). -/
theorem cond_eq (h : Effect s written none pcWritten t) : t.cond = s.cond := by
  cases h with
  | store a v hm => rw [memWrite_cond, hm.cond]
  | streams ht => exact ht.cond
  | service w hm => rw [resumeService_cond, hm.cond]
  | jump | call | halt | fault => rfl

/-- A result leaves the flag of the register written (R24, R26). -/
theorem cond_of_flags {dr : Reg} (h : Effect s written (some dr) pcWritten t) : t.cond = condOf (t.reg dr) := by
  cases h with
  | result dr v hm => simp

theorem condLegal (h : Effect s written flags pcWritten t) (hs : s.condLegal) : t.condLegal := by
  cases flags with
  | none => rwa [State.condLegal, h.cond_eq]
  | some dr => rw [State.condLegal, h.cond_of_flags]; exact .inr (condOf_oneFlag _)

theorem condOneFlag (h : Effect s written flags pcWritten t) (hs : s.condOneFlag) : t.condOneFlag := by
  cases flags with
  | none => rwa [State.condOneFlag, h.cond_eq]
  | some dr => rw [State.condOneFlag, h.cond_of_flags]; exact condOf_oneFlag _

/-- PC keeps the value that the fetch gave it (R22). -/
theorem pc_eq (h : Effect s written flags false t) : t.pc = s.pc := by
  cases h with
  | result dr v hm => exact hm.pc
  | store a v hm => rw [memWrite_pc, hm.pc]
  | streams ht => exact ht.pc
  | service w hm => rw [resumeService_pc, hm.pc]
  | halt | fault => rfl

/-- A register that is not written keeps its value (R38), and so does one that a service waits to write. -/
theorem reg_eq (h : Effect s written flags pcWritten t) {r : Reg}
    (hr : written ≠ some r ∨ s.waiting = none ∧ t.waiting ≠ none) : t.reg r = s.reg r := by
  cases h with
  | result dr v hm =>
    have hne : r ≠ dr := by
      rintro rfl
      rcases hr with hr | ⟨hs, ht⟩
      · exact hr rfl
      · exact ht (hm.waiting.trans hs)
    rw [State.setRegCC_reg_ne _ hne, hm.reg]
  | store a v hm => rw [memWrite_reg, hm.reg]
  | jump a => exact State.setPc_reg s a r
  | call a =>
    have hne : r ≠ .r7 := by
      rintro rfl
      rcases hr with hr | ⟨hs, ht⟩
      · exact hr rfl
      · exact ht hs
    rw [State.setPc_reg, saveReturn, State.setReg_reg_ne _ hne]
  | streams ht => exact ht.reg r
  | service w hm =>
    rcases hr with hr | ⟨-, ht⟩
    · exact (resumeService_reg_ne w _ fun e => hr (e ▸ rfl)).trans (hm.reg r)
    · exact (reg_of_regs (resumeService_regs_of_waiting ht) r).trans (hm.reg r)
  | halt => exact State.setEngine_reg s _ r
  | fault op hop => exact reg_of_regs rfl r

/-- The canonical form of memory stays (log 10). -/
theorem memory_wf (h : Effect s written flags pcWritten t) (hs : Memory.wf s.mem = true) : Memory.wf t.mem = true := by
  cases h with
  | result dr v hm => exact hm.mem ▸ hs
  | store a v hm => exact memWrite_wf _ (hm.mem ▸ hs) a v
  | streams ht => exact ht.mem ▸ hs
  | service w hm =>
    rw [resumeService_mem, hm.mem]
    exact hs
  | jump | call | halt | fault => exact hs

/-- The cells under the device addresses stay (R50, R56). -/
theorem device_cell (h : Effect s written flags pcWritten t) {d : Word} (hd : isDevice d = true) :
    t.cell d = s.cell d := by
  cases h with
  | result dr v hm => exact cell_of_mem hm.mem d
  | store a v hm => rw [memWrite_cell_device _ a v hd, cell_of_mem hm.mem]
  | streams ht => exact cell_of_mem ht.mem d
  | service w hm => exact cell_of_mem ((resumeService_mem w _).trans hm.mem) d
  | jump | call | halt | fault => rfl

theorem deviceCellsClear (h : Effect s written flags pcWritten t) (hs : s.deviceCellsClear) : t.deviceCellsClear := by
  obtain ⟨hkbsr, hkbdr⟩ := hs
  exact ⟨(h.device_cell rfl).trans hkbsr, (h.device_cell rfl).trans hkbdr⟩

/-- The engine goes on, or halts, or takes the fault with its record (R27, R29); at the end nothing begins to wait. -/
theorem engine_cases (h : Effect s written flags pcWritten t) :
    t.engine = s.engine ∨
    ((t.engine = .halted ∨ ∃ op, (op = opcodeValue .rti ∨ op = opcodeValue .res) ∧ t.pc = s.pc ∧
      t.engine = .faulted (.illegalOpcode (s.pc - 1#16) op)) ∧ t.waiting = s.waiting) := by
  cases h with
  | result dr v hm => exact .inl hm.engine
  | store a v hm => exact .inl ((memWrite_engine a v _).trans hm.engine)
  | streams ht => exact .inl ht.engine
  | service w hm => exact .inl ((resumeService_engine w _).trans hm.engine)
  | jump | call => exact .inl rfl
  | halt => exact .inr ⟨.inl rfl, rfl⟩
  | fault op hop => exact .inr ⟨.inr ⟨op, hop, rfl, rfl⟩, rfl⟩

end Effect

/-! ### The invariant of the machine (R25, R27, R29, R50) -/

/-- A state of the middle of a run: the clauses about the fault record, Ready and the open service say nothing more. -/
theorem State.Inv.of_running {s : State} (he : s.engine = .running) (memory : Memory.wf s.mem = true)
    (devices : s.deviceCellsClear) (cond : s.condLegal) : s.Inv :=
  { memory, devices, cond, fault := by simp [State.faultRecordRight, he], ready := by simp [State.readyFresh, he],
    waits := fun _ => he }

/-- Settles O18: every field of the reset state, the cells being unlisted. -/
theorem resetLeavesTheZeroState : Obligations.ResetLeavesTheZeroState :=
  ⟨fun r => by cases r <;> rfl, rfl, rfl, rfl, rfl, fun _ => rfl, rfl, rfl, rfl, rfl⟩

/-- Settles O20: memory is empty, no flag is set, and the engine is Ready, so that there is no fault record. -/
theorem resetMeetsTheInvariant : Obligations.ResetMeetsTheInvariant where
  memory := State.reset_wf
  devices := ⟨rfl, rfl⟩
  cond := .inl rfl
  fault := nofun
  ready := fun _ => ⟨rfl, rfl, rfl⟩
  waits := fun h => absurd rfl h

/-- The fetch keeps the invariant: after it the engine is Running, and only the keyboard and PC differ. -/
theorem State.Inv.fetch {s : State} (h : s.Inv) : (fetch s).2.Inv :=
  .of_running (fetch_engine s) (by simpa using h.memory) (by simpa [State.deviceCellsClear] using h.devices)
    (by simpa [State.condLegal] using h.cond)

/-- A waiting service that goes on keeps the invariant: it writes neither memory nor COND, and the engine is Running. -/
theorem State.Inv.resumeService {s : State} {w : Waiting} (h : s.Inv) (hw : s.waiting = some w) :
    (resumeService w s).Inv :=
  .of_running (by simp [h.waits (by simp [hw])]) (by simpa using h.memory)
    (by simpa [State.deviceCellsClear, State.cell] using h.devices) (by simpa [State.condLegal] using h.cond)

/-- An instruction keeps the invariant. Where it halts or faults no service begins to wait, and the recorded address is the
one before PC. -/
theorem Effect.inv {s t : State} {written flags : Option Reg} {pcWritten : Bool}
    (h : Effect s written flags pcWritten t) (hs : s.Inv) (he : s.engine = .running) (hw : s.waiting = none) :
    t.Inv := by
  have memory := h.memory_wf hs.memory
  have devices := h.deviceCellsClear hs.devices
  have cond := h.condLegal hs.cond
  rcases h.engine_cases with he' | ⟨hend, hw'⟩
  · exact .of_running (he'.trans he) memory devices cond
  · have waits : t.waitsRunning := fun hne => absurd (hw'.trans hw) hne
    rcases hend with hhalt | ⟨op, hop, hpc, hfault⟩
    · exact { memory, devices, cond, waits, fault := by simp [State.faultRecordRight, hhalt],
              ready := by simp [State.readyFresh, hhalt] }
    · refine { memory, devices, cond, waits, fault := fun a op' h => ?_, ready := by simp [State.readyFresh, hfault] }
      rw [hfault] at h
      cases h
      exact ⟨by rw [hpc, BitVec.sub_add_cancel], hop⟩

/-- Settles O21: each case of a step keeps the invariant. -/
theorem stepKeepsTheInvariant : Obligations.StepKeepsTheInvariant := by
  intro s t hs h
  rcases step_cases h with ⟨-, rfl⟩ | ⟨w, -, hw, rfl⟩ | ⟨-, hw, hexec⟩
  · exact hs
  · exact hs.resumeService hw
  · obtain ⟨written, heff⟩ := exec_effect_canon hexec
    exact heff.inv hs.fetch (fetch_engine s) (by rw [fetch_waiting, hw])

/-! ### The flag update (R24) -/

/-- The flag by the sign bit of the value. -/
theorem condOf_cases (v : Word) :
    (v = 0x0000#16 ∧ condOf v = condZ) ∨
    (v ≠ 0x0000#16 ∧ v.getLsbD 15 = true ∧ condOf v = condN) ∨
    (v ≠ 0x0000#16 ∧ v.getLsbD 15 = false ∧ condOf v = condP) := by
  have hsign : v.getLsbD 15 = v.msb := BitVec.msb_eq_getLsbD_last v ▸ rfl
  rw [hsign]
  by_cases hz : v = 0x0000#16
  · exact .inl ⟨hz, if_pos hz⟩
  · cases hs : v.msb with
    | true => exact .inr (.inl ⟨hz, rfl, by simp [condOf, hz, hs]⟩)
    | false => exact .inr (.inr ⟨hz, rfl, by simp [condOf, hz, hs]⟩)

/-- A one-flag value has exactly one bit set. -/
theorem existsUnique_bit_condOf (v : Word) :
    ∃ k, k < 3 ∧ ∀ j, j < 3 → ((condOf v).getLsbD j = true ↔ j = k) := by
  rcases condOf_oneFlag v with h | h | h <;> rw [h]
  · exact ⟨2, by decide, by decide⟩
  · exact ⟨1, by decide, by decide⟩
  · exact ⟨0, by decide, by decide⟩

/-- Settles O9: the flag update is the table `condOf` of the register's value, and writes COND only. -/
theorem flagUpdateFollowsTheStoredValue : Obligations.FlagUpdateFollowsTheStoredValue := by
  intro s r
  rw [State.setcc_cond]
  exact ⟨flagsOf_condOf _, condOf_cases _, existsUnique_bit_condOf _, State.setcc_reg s r, rfl, fun _ => rfl,
    ⟨rfl, rfl, rfl⟩, ⟨rfl, rfl⟩, rfl⟩

/-! ### The output, the flags and PC after a step -/

/-- Settles O24: reads leave the output alone, and every effect keeps it in front. -/
theorem outputOnlyGrows : Obligations.OutputOnlyGrows := by
  intro s t h
  rcases step_cases h with ⟨-, rfl⟩ | ⟨w, -, -, rfl⟩ | ⟨-, -, hexec⟩
  · exact List.prefix_refl _
  · exact resumeService_out_prefix w s
  · obtain ⟨written, heff⟩ := exec_effect_canon hexec
    simpa using heff.out_prefix

/-- Settles O23: a result sets one flag, and nothing else changes COND. -/
theorem oneFlagStaysOneFlag : Obligations.OneFlagStaysOneFlag := by
  intro s t hs h
  rcases step_cases h with ⟨-, rfl⟩ | ⟨w, -, -, rfl⟩ | ⟨-, -, hexec⟩
  · exact hs
  · simpa [State.condOneFlag] using hs
  · obtain ⟨written, heff⟩ := exec_effect_canon hexec
    exact heff.condOneFlag (by simpa [State.condOneFlag] using hs)

theorem writesPc_eq_false {i : Instr} (hbr : ∀ nzp off, i ≠ .br nzp off) (hjmp : ∀ base, i ≠ .jmp base)
    (hjsr : ∀ off, i ≠ .jsr off) (hjsrr : ∀ base, i ≠ .jsrr base) : writesPc i = false := by
  unfold writesPc
  split <;> simp_all

/-- Where BR goes: the mask is met by COND, or PC stays (spec/40_branch.md R110). -/
theorem exec_br_pc {nzp : BitVec 3} {off : BitVec 9} {s t : State} (h : exec (.br nzp off) s = .next t) :
    t.pc = if nzp &&& s.cond ≠ 0#3 then s.pc + sext off else s.pc := by
  simp only [exec, execBr, branchTaken, decide_eq_true_eq] at h
  split at h
  · next htaken => cases h; rw [if_pos htaken]; rfl
  · next hnot => cases h; rw [if_neg hnot]

/-- Where JSRR goes: R7 is written before the base is read (spec/44_jump.md R152, D6). -/
theorem exec_jsrr_pc {base : Reg} {s t : State} (h : exec (.jsrr base) s = .next t) :
    t.pc = if base = .r7 then s.pc else s.reg base := by
  cases h
  rw [State.setPc_pc, saveReturn]
  split
  · next hbase => rw [hbase, State.setReg_reg_same]
  · next hbase => rw [State.setReg_reg_ne s hbase]

/-- Settles O12: the four instructions that write PC, and the PC of the fetch for the others. -/
theorem howEachInstructionAdvancesPc : Obligations.HowEachInstructionAdvancesPc := by
  intro s t he hw h i
  have h : exec i (fetch s).2 = .next t := (step_fetching he hw).symm.trans h
  refine ⟨fun nzp off hi => ?_, fun base hi => ?_, fun off hi => ?_, fun base hi => ?_,
    fun hbr hjmp hjsr hjsrr => ?_⟩
  · rw [hi] at h
    simpa using exec_br_pc h
  · rw [hi] at h
    cases h
    exact fetch_reg s base
  · rw [hi] at h
    cases h
    rfl
  · rw [hi] at h
    simpa using exec_jsrr_pc h
  · obtain ⟨written, heff⟩ := exec_effect_canon h
    rw [writesPc_eq_false hbr hjmp hjsr hjsrr] at heff
    exact heff.pc_eq

end Sys2Proof.Machine

/-! ## Two runs that differ in what an instruction does not read (spec/10_state.md R26, R33, R38)

Two states are alike when they agree but for some registers, COND, and an earlier output. An instruction that reads none
of what they differ in does the same from both, and they then agree on what it wrote as well. The statements that the
output, COND and the unlisted registers influence nothing follow from it. -/

namespace Sys2Proof.Machine

open Sys2Proof

/-- `s'` is `s` but for the registers outside `known`, for COND unless `condKnown`, and for `earlier` before the output. -/
structure Alike (known : Reg → Prop) (condKnown : Prop) (earlier : List Byte) (s s' : State) : Prop where
  reg : ∀ r, known r → s'.reg r = s.reg r
  cond : condKnown → s'.cond = s.cond
  out : s'.out = earlier ++ s.out
  pc : s'.pc = s.pc
  engine : s'.engine = s.engine
  mem : s'.mem = s.mem
  kbq : s'.kbq = s.kbq
  kbChar : s'.kbChar = s.kbChar
  waiting : s'.waiting = s.waiting
  arrivals : s'.arrivals = s.arrivals

/-- With all registers known, what differs is COND and the output. -/
theorem Alike.eq {condKnown : Prop} {earlier : List Byte} {s s' : State}
    (h : Alike (fun _ => True) condKnown earlier s s') : s' = { s with cond := s'.cond, out := earlier ++ s.out } := by
  have hregs : s'.regs = s.regs := regs_ext fun r => h.reg r trivial
  obtain ⟨-, -, hout, hpc, hengine, hmem, hkbq, hkbChar, hwaiting, harrivals⟩ := h
  cases s'
  cases s
  simp_all

/-- With COND known too, and no earlier output, nothing differs. -/
theorem Alike.eq_self {s s' : State} (h : Alike (fun _ => True) True [] s s') : s' = s := by
  rw [h.eq, h.cond trivial, List.nil_append]

/-! ### Three pairs that are alike -/

theorem alike_earlierOutput (earlier : List Byte) (s : State) :
    Alike (fun _ => True) True earlier s { s with out := earlier ++ s.out } :=
  ⟨fun r _ => reg_of_regs rfl r, fun _ => rfl, rfl, rfl, rfl, rfl, rfl, rfl, rfl, rfl⟩

theorem alike_otherCond (c : BitVec 3) (s : State) : Alike (fun _ => True) False [] s { s with cond := c } :=
  ⟨fun r _ => reg_of_regs rfl r, False.elim, rfl, rfl, rfl, rfl, rfl, rfl, rfl, rfl⟩

theorem alike_otherReg (r : Reg) (v : Word) (s : State) : Alike (· ≠ r) True [] s (s.setReg r v) :=
  ⟨fun _ hq => State.setReg_reg_ne s hq v, fun _ => rfl, rfl, rfl, rfl, rfl, rfl, rfl, rfl, rfl⟩

namespace Alike

variable {known known' : Reg → Prop} {condKnown condKnown' : Prop} {earlier : List Byte} {s s' : State}

theorem mono (h : Alike known condKnown earlier s s') (hr : ∀ r, known' r → known r) (hc : condKnown' → condKnown) :
    Alike known' condKnown' earlier s s' :=
  { h with reg := fun r hk => h.reg r (hr r hk), cond := fun hk => h.cond (hc hk) }

/-! ### The operations on two states that are alike -/

theorem setReg (h : Alike known condKnown earlier s s') (r : Reg) (v : Word) :
    Alike (fun q => known q ∨ q = r) condKnown earlier (s.setReg r v) (s'.setReg r v) :=
  { h with
    reg := fun q hq => by
      by_cases e : q = r
      · rw [e, State.setReg_reg_same, State.setReg_reg_same]
      · rw [State.setReg_reg_ne _ e, State.setReg_reg_ne _ e, h.reg q (hq.resolve_right e)] }

theorem setRegCC (h : Alike known condKnown earlier s s') (r : Reg) (v : Word) :
    Alike (fun q => known q ∨ q = r) True earlier (s.setRegCC r v) (s'.setRegCC r v) :=
  { h.setReg r v with
    reg := fun q hq => by simpa [State.setRegCC] using (h.setReg r v).reg q hq
    cond := fun _ => by simp }

theorem setPc (h : Alike known condKnown earlier s s') {a a' : Word} (ha : a' = a) :
    Alike known condKnown earlier (s.setPc a) (s'.setPc a') :=
  { h with reg := fun q hq => by simp [h.reg q hq], pc := ha }

theorem setEngine (h : Alike known condKnown earlier s s') (e : Engine) :
    Alike known condKnown earlier (s.setEngine e) (s'.setEngine e) :=
  { h with reg := fun q hq => by simp [h.reg q hq], engine := rfl }

theorem raiseIllegalOpcode (h : Alike known condKnown earlier s s') (op : BitVec 4) :
    Alike known condKnown earlier (raiseIllegalOpcode op s) (raiseIllegalOpcode op s') := by
  simp only [Machine.raiseIllegalOpcode, State.instrAddr, h.pc]
  exact h.setEngine _

theorem append (h : Alike known condKnown earlier s s') (bs : List Byte) :
    Alike known condKnown earlier { s with out := s.out ++ bs } { s' with out := s'.out ++ bs } :=
  { h with
    reg := fun q hq => (reg_of_regs rfl q).trans ((h.reg q hq).trans (reg_of_regs rfl q))
    out := by simp [h.out] }

theorem outByte (h : Alike known condKnown earlier s s') {b b' : Byte} (hb : b' = b) :
    Alike known condKnown earlier (outByte b s) (outByte b' s') := hb ▸ h.append [b']

theorem memWrite (h : Alike known condKnown earlier s s') {a a' v v' : Word} (ha : a' = a) (hv : v' = v) :
    Alike known condKnown earlier (memWrite a v s) (memWrite a' v' s') := by
  subst ha hv
  cases hd : isDevice a' with
  | true => rwa [memWrite_device hd, memWrite_device hd]
  | false =>
    rw [memWrite_ordinary hd, memWrite_ordinary hd]
    exact { h with reg := fun q hq => by simp [h.reg q hq], mem := by simp [h.mem] }

/-- A read gives the same word, and does the same to the keyboard. -/
theorem memRead (h : Alike known condKnown earlier s s') {a a' : Word} (ha : a' = a) :
    (memRead a' s').1 = (memRead a s).1 ∧ Alike known condKnown earlier (memRead a s).2 (memRead a' s').2 := by
  subst ha
  have hs' : s'.storageOf s = s' := by simp [State.storageOf, ← h.mem, ← h.kbq, ← h.kbChar, ← h.arrivals]
  have hread := memRead_storageOf a' s' s
  rw [hs'] at hread
  rw [hread]
  exact ⟨rfl, { reg := fun q hq => (reg_of_regs rfl q).trans ((h.reg q hq).trans (memRead_reg a' s q).symm)
                cond := fun hc => (h.cond hc).trans (memRead_cond a' s).symm
                out := by simpa [State.storageOf] using h.out
                pc := h.pc.trans (memRead_pc a' s).symm
                engine := h.engine.trans (memRead_engine a' s).symm
                mem := rfl
                kbq := rfl
                kbChar := rfl
                waiting := h.waiting.trans (memRead_waiting a' s).symm
                arrivals := rfl }⟩

theorem fetch (h : Alike known condKnown earlier s s') :
    (fetch s').1 = (fetch s).1 ∧ Alike known condKnown earlier (fetch s).2 (fetch s').2 := by
  obtain ⟨hword, hread⟩ := (h.setEngine .running).memRead h.pc
  exact ⟨hword, hread.setPc (by rw [h.pc])⟩

/-- `In()` gives the same character, or none from both. -/
theorem takeChar (h : Alike known condKnown earlier s s') :
    (takeChar s').1 = (takeChar s).1 ∧ Alike known condKnown earlier (takeChar s).2 (takeChar s').2 := by
  have hreg : ∀ q, known q → (Machine.takeChar s').2.reg q = (Machine.takeChar s).2.reg q := fun q hq =>
    (reg_of_regs (takeChar_regs s') q).trans ((h.reg q hq).trans (reg_of_regs (takeChar_regs s) q).symm)
  simp only [Machine.takeChar, h.kbq, h.arrivals] at hreg ⊢
  generalize awaitInput s.kbq s.arrivals = r at hreg ⊢
  obtain ⟨_ | ⟨c, q⟩, later⟩ := r
  · exact ⟨rfl, { h with reg := hreg, kbq := rfl, arrivals := rfl }⟩
  · exact ⟨rfl, { h with reg := hreg, kbq := rfl, kbChar := rfl, arrivals := rfl }⟩

theorem setWaiting (h : Alike known condKnown earlier s s') (w : Option Waiting) :
    Alike known condKnown earlier { s with waiting := w } { s' with waiting := w } :=
  { h with reg := fun q hq => (reg_of_regs rfl q).trans ((h.reg q hq).trans (reg_of_regs rfl q)), waiting := rfl }

theorem finishService (h : Alike known condKnown earlier s s') (w : Waiting) (c : Byte) :
    Alike (fun q => known q ∨ q = .r0) condKnown earlier (finishService w c s) (finishService w c s') := by
  cases w with
  | getc => exact h.setReg .r0 (zext c)
  | inp => exact (h.outByte rfl).setReg .r0 (zext c)

/-- GETC and IN end with the same character, R0 being known then, or wait from both states. -/
theorem resumeService (h : Alike known condKnown earlier s s') (w : Waiting) :
    Alike (fun q => known q ∨ .r0 = q ∧ (resumeService w s).waiting = none) condKnown earlier
      (resumeService w s) (resumeService w s') := by
  obtain ⟨hc, ht⟩ := h.takeChar
  unfold Machine.resumeService
  generalize Machine.takeChar s = r at hc ht ⊢
  generalize Machine.takeChar s' = r' at hc ht ⊢
  obtain ⟨c, t⟩ := r
  obtain ⟨c', t'⟩ := r'
  cases hc
  cases c with
  | none => exact (ht.setWaiting (some w)).mono (fun q hq => hq.resolve_right fun hn => by cases hn.2) id
  | some c => exact ((ht.setWaiting none).finishService w c).mono (fun q hq => hq.imp_right fun e => e.1.symm) id

theorem putsLoop (h : Alike known condKnown earlier s s') {n : Nat} {a : Word} {t : State}
    (ht : putsLoop n a s = some t) : ∃ t', putsLoop n a s' = some t' ∧ Alike known condKnown earlier t t' := by
  induction n generalizing a s s' with
  | zero => cases ht
  | succ n ih =>
    obtain ⟨hword, hread⟩ := h.memRead (a := a) rfl
    simp only [Machine.putsLoop, hword] at ht ⊢
    split at ht
    · next hz =>
      cases ht
      exact ⟨_, if_pos hz, hread⟩
    · next hz =>
      rw [if_neg hz]
      exact ih (hread.outByte rfl) ht

theorem putspLoop (h : Alike known condKnown earlier s s') {n : Nat} {a : Word} {t : State}
    (ht : putspLoop n a s = some t) : ∃ t', putspLoop n a s' = some t' ∧ Alike known condKnown earlier t t' := by
  induction n generalizing a s s' with
  | zero => cases ht
  | succ n ih =>
    obtain ⟨hword, hread⟩ := h.memRead (a := a) rfl
    simp only [Machine.putspLoop, hword] at ht ⊢
    split at ht
    · next hlow =>
      cases ht
      exact ⟨_, if_pos hlow, hread⟩
    · next hlow =>
      rw [if_neg hlow]
      split at ht
      · next hhigh =>
        cases ht
        exact ⟨_, if_pos hhigh, hread.outByte rfl⟩
      · next hhigh =>
        rw [if_neg hhigh]
        exact ih ((hread.outByte rfl).outByte rfl) ht

theorem stringBound (h : Alike known condKnown earlier s s') : stringBound s' = stringBound s := by
  simp only [Machine.stringBound, h.kbq, h.arrivals]

end Alike

/-! ### The instructions -/

/-- After an instruction the register it wrote is known, unless its service waits, and so is COND if it set the flags. -/
abbrev AlikeAfter (i : Instr) (known : Reg → Prop) (condKnown : Prop) (earlier : List Byte) (t t' : State) : Prop :=
  Alike (fun q => known q ∨ regWritten i = some q ∧ t.waiting = none) (condKnown ∨ flagReg i ≠ none) earlier t t'

section

variable {known : Reg → Prop} {condKnown : Prop} {earlier : List Byte} {i : Instr} {s s' t t' : State}

/-- An instruction that writes neither a register nor COND leaves known what was. -/
theorem AlikeAfter.noWrite (h : Alike known condKnown earlier t t') (hw : regWritten i = none) (hf : flagReg i = none) :
    AlikeAfter i known condKnown earlier t t' :=
  h.mono (fun q hq => hq.resolve_right (by simp [hw])) (fun hc => hc.resolve_right (by simp [hf]))

/-- An instruction that writes a result leaves it and its flags known. -/
theorem AlikeAfter.result (h : Alike known condKnown earlier s s') {dr : Reg} (hw : regWritten i = some dr)
    {v v' : Word} (hv : v' = v) :
    AlikeAfter i known condKnown earlier (s.setRegCC dr v) (s'.setRegCC dr v') := by
  subst hv
  exact (h.setRegCC dr v').mono (fun q hq => hq.imp_right fun e => (Option.some.inj (hw.symm.trans e.1)).symm)
    fun _ => trivial

/-- A load from the same address. -/
theorem AlikeAfter.load (h : Alike known condKnown earlier s s') {dr : Reg} (hw : regWritten i = some dr) {a a' : Word}
    (ha : a' = a) : AlikeAfter i known condKnown earlier (loadFrom dr a s) (loadFrom dr a' s') := by
  obtain ⟨hword, hread⟩ := h.memRead ha
  exact .result hread hw hword

/-- A call links the same address and goes to the same address. -/
theorem AlikeAfter.call (h : Alike known condKnown earlier s s') (hw : regWritten i = some .r7) (hf : flagReg i = none)
    {a a' : Word} (ha : a' = a) :
    AlikeAfter i known condKnown earlier ((saveReturn s).setPc a) ((saveReturn s').setPc a') := by
  simp only [saveReturn, h.pc]
  exact ((h.setReg .r7 s.pc).setPc ha).mono
    (fun q hq => hq.imp_right fun e => (Option.some.inj (hw.symm.trans e.1)).symm)
    fun hc => hc.resolve_right (by simp [hf])

theorem AlikeAfter.service (h : Alike known condKnown earlier s s') (hw : regWritten i = some .r0)
    (hf : flagReg i = none) (w : Waiting) :
    AlikeAfter i known condKnown earlier (resumeService w s) (resumeService w s') :=
  (h.resumeService w).mono (fun q hq => hq.imp_right fun e => ⟨Option.some.inj (hw.symm.trans e.1), e.2⟩)
    fun hc => hc.resolve_right (by simp [hf])

theorem stringOutcome_eq_next {o : Option State} : stringOutcome o = .next t ↔ o = some t := by
  cases o <;> simp [stringOutcome]

/-- An instruction does the same from two states that agree on the registers it reads, by the table of R38, and, if it is
BR, on COND. -/
theorem exec_alike (h : Alike known condKnown earlier s s') (hi : i.wf = true) (hr : ∀ r ∈ regsRead i, known r)
    (hc : ∀ nzp off, i = .br nzp off → condKnown) (ht : exec i s = .next t) :
    ∃ t', exec i s' = .next t' ∧ AlikeAfter i known condKnown earlier t t' := by
  have reg : ∀ r ∈ regsRead i, s'.reg r = s.reg r := fun r hm => h.reg r (hr r hm)
  have rel : ∀ {n : Nat} (off : BitVec n), pcRelative off s' = pcRelative off s := fun off => by
    simp only [pcRelative, h.pc]
  have based : ∀ base ∈ regsRead i, ∀ off, basePlus base off s' = basePlus base off s := fun base hm off => by
    simp only [basePlus, reg base hm]
  cases i with
  | br nzp off =>
    have htaken : branchTaken nzp s' = branchTaken nzp s := by simp only [branchTaken, h.cond (hc nzp off rfl)]
    simp only [exec, execBr, htaken] at ht ⊢
    split at ht
    · next hb =>
      cases ht
      exact ⟨_, if_pos hb, .noWrite (h.setPc (rel off)) rfl rfl⟩
    · next hb =>
      cases ht
      exact ⟨_, if_neg hb, .noWrite h rfl rfl⟩
  | addReg dr sr1 sr2 =>
    cases ht
    exact ⟨_, rfl, .result h rfl (by rw [reg sr1 (by simp [regsRead]), reg sr2 (by simp [regsRead])])⟩
  | addImm dr sr1 imm =>
    cases ht
    exact ⟨_, rfl, .result h rfl (by rw [reg sr1 (by simp [regsRead])])⟩
  | andReg dr sr1 sr2 =>
    cases ht
    exact ⟨_, rfl, .result h rfl (by rw [reg sr1 (by simp [regsRead]), reg sr2 (by simp [regsRead])])⟩
  | andImm dr sr1 imm =>
    cases ht
    exact ⟨_, rfl, .result h rfl (by rw [reg sr1 (by simp [regsRead])])⟩
  | not dr sr =>
    cases ht
    exact ⟨_, rfl, .result h rfl (by rw [reg sr (by simp [regsRead])])⟩
  | lea dr off =>
    cases ht
    exact ⟨_, rfl, .result h rfl (rel off)⟩
  | ld dr off =>
    cases ht
    exact ⟨_, rfl, .load h rfl (rel off)⟩
  | ldr dr base off =>
    cases ht
    exact ⟨_, rfl, .load h rfl (based base (by simp [regsRead]) off)⟩
  | ldi dr off =>
    cases ht
    obtain ⟨hword, hread⟩ := h.memRead (rel off)
    exact ⟨_, rfl, .load hread rfl hword⟩
  | st sr off =>
    cases ht
    exact ⟨_, rfl, .noWrite (h.memWrite (rel off) (reg sr (by simp [regsRead]))) rfl rfl⟩
  | str sr base off =>
    cases ht
    exact ⟨_, rfl, .noWrite (h.memWrite (based base (by simp [regsRead]) off) (reg sr (by simp [regsRead]))) rfl rfl⟩
  | sti sr off =>
    cases ht
    obtain ⟨hword, hread⟩ := h.memRead (rel off)
    exact ⟨_, rfl, .noWrite (hread.memWrite hword (hread.reg sr (hr sr (by simp [regsRead])))) rfl rfl⟩
  | jmp base =>
    cases ht
    exact ⟨_, rfl, .noWrite (h.setPc (reg base (by simp [regsRead]))) rfl rfl⟩
  | jsr off =>
    cases ht
    exact ⟨_, rfl, .call h rfl rfl (rel off)⟩
  | jsrr base =>
    cases ht
    refine ⟨_, rfl, .call h rfl rfl ?_⟩
    by_cases hb : base = .r7
    · rw [hb, saveReturn, State.setReg_reg_same, saveReturn, State.setReg_reg_same, h.pc]
    · rw [saveReturn, State.setReg_reg_ne _ hb, saveReturn, State.setReg_reg_ne _ hb, reg base (by simp [regsRead, hb])]
  | rti =>
    cases ht
    exact ⟨_, rfl, .noWrite (h.raiseIllegalOpcode _) rfl rfl⟩
  | res =>
    cases ht
    exact ⟨_, rfl, .noWrite (h.raiseIllegalOpcode _) rfl rfl⟩
  | trap v =>
    rw [exec_trap_of_wf hi] at ht
    cases ht
    exact ⟨_, exec_trap_of_wf hi s', .noWrite h rfl rfl⟩
  | getc =>
    cases ht
    exact ⟨_, rfl, .service h rfl rfl .getc⟩
  | inp =>
    cases ht
    exact ⟨_, rfl, .service (h.append Config.inPrompt) rfl rfl .inp⟩
  | out =>
    cases ht
    exact ⟨_, rfl, .noWrite (h.outByte (by rw [reg .r0 (by simp [regsRead])])) rfl rfl⟩
  | puts =>
    obtain ⟨t', ht', halike⟩ := h.putsLoop (stringOutcome_eq_next.mp ht)
    rw [← h.stringBound, ← reg .r0 (by simp [regsRead])] at ht'
    exact ⟨t', stringOutcome_eq_next.mpr ht', .noWrite halike rfl rfl⟩
  | putsp =>
    obtain ⟨t', ht', halike⟩ := h.putspLoop (stringOutcome_eq_next.mp ht)
    rw [← h.stringBound, ← reg .r0 (by simp [regsRead])] at ht'
    exact ⟨t', stringOutcome_eq_next.mpr ht', .noWrite halike rfl rfl⟩
  | halt =>
    cases ht
    exact ⟨_, rfl, .noWrite (h.setEngine .halted) rfl rfl⟩

end

/-! ### The statements -/

/-- Settles O25: the two runs read the same, so that the earlier output stays in front of what both write. -/
theorem outputIsNeverRead : Obligations.OutputIsNeverRead := by
  intro earlier s t h
  have halike := alike_earlierOutput earlier s
  rcases step_cases h with ⟨he, rfl⟩ | ⟨w, he, hw, rfl⟩ | ⟨he, hw, hexec⟩
  · exact step_terminal he
  · have hstep := step_waiting (s := { s with out := earlier ++ s.out }) he hw
    have hall := (halike.resumeService w).mono (known' := fun _ => True) (fun _ _ => .inl trivial) id
    rw [hstep, hall.eq, hall.cond trivial]
  · have hstep := step_fetching (s := { s with out := earlier ++ s.out }) he hw
    obtain ⟨hword, hfetch⟩ := halike.fetch
    obtain ⟨hwf, hcanon, -⟩ := canon_spec (decode (fetch s).1)
    rw [← hcanon] at hexec
    obtain ⟨t', ht', hafter⟩ := exec_alike hfetch hwf (fun _ _ => trivial) (fun _ _ _ => trivial) hexec
    have hall := hafter.mono (known' := fun _ => True) (condKnown' := True) (fun _ _ => .inl trivial) .inl
    rw [hstep, hword, ← hcanon, ht', hall.eq, hall.cond trivial]

/-- Settles O10: COND after an instruction is read off its effect, in each of the two runs. -/
theorem onlyResultsWriteCondAndOnlyBrReadsIt : Obligations.OnlyResultsWriteCondAndOnlyBrReadsIt := by
  intro i s t h
  obtain ⟨written, heff⟩ := exec_effect_canon h
  refine ⟨fun r hr => ?_, fun hr => ?_, fun hbr c => ?_⟩
  · rw [hr] at heff
    rw [heff.cond_of_flags]
    exact flagsOf_condOf _
  · rw [hr] at heff
    exact heff.cond_eq
  · obtain ⟨hwf, hcanon, hflag, -⟩ := canon_spec i
    rw [← hcanon] at h
    obtain ⟨t', ht', hafter⟩ := exec_alike (alike_otherCond c s) hwf (fun _ _ => trivial)
      (fun nzp off hi => hbr nzp off (canon_eq_br hi)) h
    rw [hcanon] at ht'
    have hcond : t'.cond = if flagReg i = none then c else t.cond := by
      split
      · next hnone =>
        obtain ⟨written', heff'⟩ := exec_effect_canon ht'
        rw [hnone] at heff'
        exact heff'.cond_eq
      · next hsome => exact hafter.cond (.inr (hflag ▸ hsome))
    have hall := hafter.mono (known' := fun _ => True) (fun _ _ => .inl trivial) id
    rw [ht', hall.eq, hcond, List.nil_append]

/-- Settles O53: the registers left alone are read off the effect, in each of the two runs; all else is alike. -/
theorem registersReadAndWrittenAreThoseOfTheTable : Obligations.RegistersReadAndWrittenAreThoseOfTheTable := by
  intro i s t hi hw h
  refine ⟨fun r hr => (exec_effect hi h).reg_eq (.inl hr), fun r v hread => ?_⟩
  obtain ⟨t', ht', hafter⟩ := exec_alike (alike_otherReg r v s) hi (fun q hq e => hread (e ▸ hq))
    (fun _ _ _ => trivial) h
  refine ⟨t', ht', ?_, fun hwritten hend => hafter.reg r (.inr ⟨hwritten, hend⟩), fun hkept => ?_⟩
  · exact ((hafter.setReg r 0#16).mono (fun q _ => (eq_or_ne q r).symm.imp_left .inl) (fun _ => .inl trivial)).eq_self
  · have hkept' : regWritten i ≠ some r ∨ (s.setReg r v).waiting = none ∧ t'.waiting ≠ none :=
      hkept.imp_right fun hne => ⟨hw, hafter.waiting ▸ hne⟩
    rw [(exec_effect hi ht').reg_eq hkept', State.setReg_reg_same]

end Sys2Proof.Machine

/-! ## The memory array as data, and the memory port at an ordinary address (spec/20_memory.md R50, R51, R55, R67)

A cell list in canonical form is determined by what it reads: its first listed address is the least that does not read as
an unlisted one. -/

namespace Sys2Proof.Machine

open Sys2Proof

/-! ### The canonical form determines the list -/

theorem wfCellsFrom_cons {lo k : Nat} {w : Word} {rest : List Cell} :
    wfCellsFrom lo ((k, w) :: rest) = true ↔
      lo ≤ k ∧ k < 65536 ∧ w ≠ unlisted ∧ wfCellsFrom (k + 1) rest = true := by
  simp only [wfCellsFrom, Bool.and_eq_true, decide_eq_true_eq, and_assoc]

theorem readCells_cons_same (k : Nat) (w : Word) (rest : List Cell) : readCells ((k, w) :: rest) k = w := if_pos rfl

theorem readCells_cons_ne {k a : Nat} (h : k ≠ a) (w : Word) (rest : List Cell) :
    readCells ((k, w) :: rest) a = readCells rest a := if_neg h

/-- Only an address from `lo` on can read as listed. -/
theorem le_of_readCells_ne_unlisted {lo a : Nat} {m : List Cell} (hm : wfCellsFrom lo m = true)
    (h : readCells m a ≠ unlisted) : lo ≤ a :=
  not_lt.mp fun hlt => h (readCells_below hm hlt)

/-- The first entries of two canonical lists that read the same are equal: neither address is below the other. -/
theorem head_eq_of_readCells_eq {lo lo' k k' : Nat} {w w' : Word} {rest rest' : List Cell}
    (hm : wfCellsFrom lo ((k, w) :: rest) = true) (hm' : wfCellsFrom lo' ((k', w') :: rest') = true)
    (h : ∀ a, a < 65536 → readCells ((k, w) :: rest) a = readCells ((k', w') :: rest') a) : k = k' ∧ w = w' := by
  obtain ⟨-, hk, hw, hrest⟩ := wfCellsFrom_cons.mp hm
  obtain ⟨-, hk', hw', hrest'⟩ := wfCellsFrom_cons.mp hm'
  have hread := h k hk
  have hread' := h k' hk'
  rw [readCells_cons_same] at hread hread'
  have hle : k' ≤ k :=
    le_of_readCells_ne_unlisted (wfCellsFrom_cons.mpr ⟨le_rfl, hk', hw', hrest'⟩) (hread ▸ hw)
  have hle' : k ≤ k' :=
    le_of_readCells_ne_unlisted (wfCellsFrom_cons.mpr ⟨le_rfl, hk, hw, hrest⟩) (hread' ▸ hw')
  obtain rfl : k = k' := le_antisymm hle' hle
  exact ⟨rfl, hread.trans (readCells_cons_same k w' rest')⟩

/-- Canonical lists that read the same are the same list. -/
theorem eq_of_readCells_eq {lo : Nat} {m m' : List Cell} (hm : wfCellsFrom lo m = true)
    (hm' : wfCellsFrom lo m' = true) (h : ∀ a, a < 65536 → readCells m a = readCells m' a) : m = m' := by
  induction m generalizing lo m' with
  | nil =>
    cases m' with
    | nil => rfl
    | cons c' rest' =>
      obtain ⟨-, hk', hw', -⟩ := wfCellsFrom_cons.mp hm'
      exact absurd ((h _ hk').trans (readCells_cons_same ..)).symm hw'
  | cons c rest ih =>
    obtain ⟨k, w⟩ := c
    obtain ⟨-, hk, hw, hrest⟩ := wfCellsFrom_cons.mp hm
    cases m' with
    | nil => exact absurd ((readCells_cons_same ..).symm.trans (h _ hk)) hw
    | cons c' rest' =>
      obtain ⟨k', w'⟩ := c'
      obtain ⟨rfl, rfl⟩ := head_eq_of_readCells_eq hm hm' h
      obtain ⟨-, -, -, hrest'⟩ := wfCellsFrom_cons.mp hm'
      congr 1
      refine ih hrest hrest' fun a ha => ?_
      by_cases hka : k = a
      · rw [readCells_below hrest (by omega), readCells_below hrest' (by omega)]
      · simpa only [readCells_cons_ne hka] using h a ha

/-- Settles O27, by induction along the two lists. -/
theorem canonicalMemoriesThatReadTheSameAreEqual : Obligations.CanonicalMemoriesThatReadTheSameAreEqual :=
  fun _ _ => eq_of_readCells_eq

/-! ### Reads and writes -/

theorem isDevice_eq_false {a : Word} (hkbsr : a ≠ 0xFE00#16) (hkbdr : a ≠ 0xFE02#16) : isDevice a = false := by
  simp [isDevice, kbsrAddr, kbdrAddr, hkbsr, hkbdr]

/-- A write at an ordinary address reads back, from the cell and through the memory port (R55). -/
theorem memWrite_cell_same {s : State} {a : Word} (hwf : Memory.wf s.mem = true) (ha : isDevice a = false) (v : Word) :
    (memWrite a v s).cell a = v := by
  rw [memWrite_ordinary ha]
  exact s.setCell_cell_same hwf a v

/-- Settles O29: the write is the cell's, which is read back, and only memory differs. -/
theorem ordinaryWriteStoresVerbatim : Obligations.OrdinaryWriteStoresVerbatim := by
  intro s a v hwf hkbsr hkbdr
  have ha := isDevice_eq_false hkbsr hkbdr
  have hcell := memWrite_cell_same hwf ha v
  refine ⟨hcell, ?_, fun b hb => memWrite_cell_ne s hb v, memWrite_reg a v s, memWrite_pc a v s, memWrite_cond a v s,
    ⟨memWrite_kbq a v s, memWrite_kbChar a v s, memWrite_arrivals a v s⟩,
    ⟨memWrite_engine a v s, memWrite_waiting a v s⟩, memWrite_out a v s⟩
  rw [memRead_ordinary ha]
  exact hcell

/-- A fetch at an ordinary address by a Running engine reads the cell at PC and only increments PC (R66). -/
theorem fetch_ordinary {s : State} (he : s.engine = .running) (hpc : isDevice s.pc = false) :
    fetch s = (s.cell s.pc, s.setPc (s.pc + 1#16)) := by
  have hrun : s.setEngine .running = s := by rw [← he]; rfl
  rw [fetch, hrun, memRead_ordinary hpc]

/-- Settles O34: the STR is a write at PC, and the fetch after it reads that cell. -/
theorem storeIsSeenByTheVeryNextFetch : Obligations.StoreIsSeenByTheVeryNextFetch := by
  intro s t sr base off hwf he hw haddr hpc hexec
  obtain rfl : memWrite s.pc (s.reg sr) s = t := haddr ▸ Host.Outcome.next.inj hexec
  have hfetch : fetch (memWrite s.pc (s.reg sr) s) =
      (s.reg sr, (memWrite s.pc (s.reg sr) s).setPc (s.pc + 1#16)) := by
    rw [fetch_ordinary (by rw [memWrite_engine, he]) (by rwa [memWrite_pc]), memWrite_pc, memWrite_cell_same hwf hpc]
  refine ⟨by rw [hfetch], ?_⟩
  rw [step_fetching (by rw [memWrite_engine, he]; rfl) (by rw [memWrite_waiting, hw]), hfetch]

/-- Settles O28: an ordinary read answers the cell and the state as it is. -/
theorem ordinaryReadReturnsTheCellAndChangesNothing : Obligations.OrdinaryReadReturnsTheCellAndChangesNothing := by
  intro s a hkbsr hkbdr
  have hread := memRead_ordinary (isDevice_eq_false hkbsr hkbdr) s
  refine ⟨hread, ?_⟩
  rw [hread, hread]

/-- Settles O30: both addresses are the devices'. -/
theorem deviceWritesAreIgnored : Obligations.DeviceWritesAreIgnored :=
  fun s v => ⟨memWrite_device rfl v s, memWrite_device rfl v s⟩

end Sys2Proof.Machine

/-! ## The keyboard behind the memory port, and what a step takes from the input (spec/20_memory.md R52 to R54, R70)

A read brings the pending characters up to date and is then one of four cases: at the status or at the data register, with
nothing pending or with a first character. A step takes input by such a read or by GETC and IN; what it took is in
`kb_char` afterwards, because a character that was read as a word is the address of an ordinary cell, or a BR. -/

namespace Sys2Proof.Machine

open Sys2Proof

/-! ### The two device registers -/

theorem memRead_kbsr (s : State) : memRead kbsrAddr s = readKbsr (pollInput s) := if_pos rfl

theorem memRead_kbdr (s : State) : memRead kbdrAddr s = readKbdr (pollInput s) := rfl

theorem memRead_kbsr_idle {s : State} (h : (pollInput s).kbq = []) :
    memRead kbsrAddr s = (0x0000#16, pollInput s) := by
  rw [memRead_kbsr, readKbsr, h]

theorem memRead_kbsr_pending {s : State} {c : Byte} {q : List Byte} (h : (pollInput s).kbq = c :: q) :
    memRead kbsrAddr s = (kbsrReady, { pollInput s with kbChar := c }) := by
  rw [memRead_kbsr, readKbsr]
  split
  · next hidle => cases h.symm.trans hidle
  · next hpending => cases h.symm.trans hpending; rfl

theorem memRead_kbdr_idle {s : State} (h : (pollInput s).kbq = []) :
    memRead kbdrAddr s = (zext (pollInput s).kbChar, pollInput s) := by
  rw [memRead_kbdr, readKbdr, h]
  rfl

theorem memRead_kbdr_pending {s : State} {c : Byte} {q : List Byte} (h : (pollInput s).kbq = c :: q) :
    memRead kbdrAddr s = (zext c, { pollInput s with kbq := q, kbChar := c }) := by
  rw [memRead_kbdr, readKbdr, h]
  rfl

/-- The status word tells whether a character is pending (R52). -/
theorem memRead_kbsr_eq_zero_iff (s : State) : (memRead kbsrAddr s).1 = 0x0000#16 ↔ (pollInput s).kbq = [] := by
  cases h : (pollInput s).kbq with
  | nil => simp [memRead_kbsr_idle h]
  | cons c q => simp [memRead_kbsr_pending h, kbsrReady]

theorem memRead_kbsr_inputToCome (s : State) : (memRead kbsrAddr s).2.inputToCome = s.inputToCome :=
  (memRead_inputToCome kbsrAddr s).resolve_right fun h => absurd h.1 (by decide)

/-- Settles O31: the two cases of a status read. -/
theorem statusReadProbesWithoutConsuming : Obligations.StatusReadProbesWithoutConsuming := by
  intro s
  refine ⟨fun hidle => ?_, fun c q hpending => ?_, memRead_kbsr_inputToCome s⟩
  · exact Prod.ext_iff.mp (memRead_kbsr_idle hidle)
  · exact Prod.ext_iff.mp (memRead_kbsr_pending hpending)

/-- The byte is the low half of its extension with zeros. -/
theorem lowByte_zext (c : Byte) : lowByte (zext c) = c :=
  (BitVec.extractLsb'_setWidth_of_le (by decide)).trans BitVec.extractLsb'_eq_self

/-- The bits above the byte are zero. -/
theorem extractLsb'_zext_of_le (c : Byte) {start : Nat} (h : 8 ≤ start) (len : Nat) :
    (zext c).extractLsb' start len = 0#len := by
  ext k hk
  have hc : c.getLsbD (start + k) = false := BitVec.getLsbD_of_ge c _ (by omega)
  simp [zext, hc]

/-- Settles O32: the read takes the first character; a status read before it or after it only looks. -/
theorem dataReadConsumesThePendingCharacter : Obligations.DataReadConsumesThePendingCharacter := by
  intro s c q hpending
  have hread : memRead 0xFE02#16 s = (zext c, { pollInput s with kbq := q, kbChar := c }) :=
    memRead_kbdr_pending hpending
  have hprobed : memRead 0xFE00#16 { s with arrivals := [], kbq := c :: q } =
      (kbsrReady, { s with arrivals := [], kbq := c :: q, kbChar := c }) := memRead_kbsr_pending rfl
  have hafter : memRead 0xFE02#16 { s with arrivals := [], kbq := c :: q, kbChar := c } =
      (zext c, { s with arrivals := [], kbq := q, kbChar := c }) := memRead_kbdr_pending rfl
  intro r
  simp only [r]
  rw [hread, hprobed, hafter]
  exact ⟨lowByte_zext c, extractLsb'_zext_of_le c le_rfl 8, rfl, memRead_kbsr_eq_zero_iff _, rfl⟩

/-- Settles O33: the read gives the latch, which bringing the input up to date leaves alone. -/
theorem idleDataReadRepeatsTheLastCharacter : Obligations.IdleDataReadRepeatsTheLastCharacter := by
  intro s hidle
  have hread := memRead_kbdr_idle hidle
  rw [pollInput_kbChar] at hread
  exact ⟨hread, pollInput_kbChar s⟩

/-! ### At most one character -/

/-- From `s` to `t` no character is consumed, or, with `cause`, the first one is, and `kb_char` is it. -/
def TakesAtMostOne (cause : Prop) (s t : State) : Prop :=
  t.inputToCome = s.inputToCome ∨ cause ∧ s.inputToCome = t.kbChar :: t.inputToCome

section

variable {cause cause' : Prop} {s m t : State}

theorem TakesAtMostOne.refl (s : State) : TakesAtMostOne cause s s := .inl rfl

theorem TakesAtMostOne.imp (h : TakesAtMostOne cause s t) (hc : cause → cause') : TakesAtMostOne cause' s t :=
  Or.imp_right (And.imp_left hc) h

theorem SameKeyboard.inputToCome (h : SameKeyboard s t) : t.inputToCome = s.inputToCome := by
  obtain ⟨hkbq, -, harrivals⟩ := h
  rw [State.inputToCome, hkbq, harrivals, State.inputToCome]

/-- What follows and leaves the keyboard alone takes nothing. -/
theorem TakesAtMostOne.thenSame (h : TakesAtMostOne cause s m) (k : SameKeyboard m t) : TakesAtMostOne cause s t := by
  obtain ⟨-, hkbChar, -⟩ := id k
  rwa [TakesAtMostOne, k.inputToCome, hkbChar]

/-- What goes before and takes nothing. -/
theorem TakesAtMostOne.ofSame (k : m.inputToCome = s.inputToCome) (h : TakesAtMostOne cause m t) :
    TakesAtMostOne cause s t := by
  rwa [TakesAtMostOne, ← k]

end

theorem memWrite_sameKeyboard (a v : Word) (s : State) : SameKeyboard s (memWrite a v s) :=
  ⟨memWrite_kbq a v s, memWrite_kbChar a v s, memWrite_arrivals a v s⟩

/-- A read takes at most the first character, at the data register only, and the word is then that character. -/
theorem memRead_takes (a : Word) (s : State) :
    TakesAtMostOne (a = kbdrAddr ∧ ∃ c : Byte, (memRead a s).1 = zext c) s (memRead a s).2 := by
  rcases memRead_inputToCome a s with h | ⟨rfl, -⟩
  · exact .inl h
  · rw [TakesAtMostOne, ← pollInput_inputToCome s]
    cases hq : (pollInput s).kbq with
    | nil => rw [memRead_kbdr_idle hq]; exact .inl rfl
    | cons c q =>
      rw [memRead_kbdr_pending hq]
      exact .inr ⟨⟨rfl, c, rfl⟩, by simp [State.inputToCome, hq]⟩

/-- A character read as an address is that of an ordinary cell. -/
theorem isDevice_zext (c : Byte) : isDevice (zext c) = false := by
  have hlt : (zext c).toNat < 256 := by rw [toNat_zext c (by decide)]; exact c.isLt
  exact isDevice_eq_false (fun e => absurd (e ▸ hlt) (by decide)) (fun e => absurd (e ▸ hlt) (by decide))

/-- A character read as an instruction is a BR. -/
theorem decode_zext (c : Byte) : ∃ nzp off, decode (zext c) = .br nzp off := by
  have hop : (decodeFields (zext c)).opcode = 0x0#4 := extractLsb'_zext_of_le c (by decide) 4
  refine ⟨(decodeFields (zext c)).dr, (decodeFields (zext c)).pcoffset9, ?_⟩
  rw [decode, selectInstr, hop]
  rfl

/-- Two reads one after the other, the second at the address that the first answers, take at most one character: if the
first takes one, the second is at an ordinary address. -/
theorem memRead_indirect_takes (a : Word) (s : State) :
    TakesAtMostOne (a = kbdrAddr ∨ (memRead a s).1 = kbdrAddr) s (memRead (memRead a s).1 (memRead a s).2).2 := by
  rcases memRead_takes a s with h | ⟨⟨ha, c, hc⟩, htaken⟩
  · exact .ofSame h ((memRead_takes _ _).imp fun e => .inr e.1)
  · rw [hc, memRead_ordinary (isDevice_zext c)]
    exact .inr ⟨.inl ha, htaken⟩

/-! ### The instructions and the step -/

theorem decode_wf (w : Word) : (decode w).wf = true := by
  have htrap : ∀ v, (trapInstr v).wf = true := fun v => (canon_spec (.trap v)).1
  unfold decode selectInstr
  cases opcodeMap (decodeFields w).opcode with
  | trap => exact htrap _
  | add | and | jsr => dsimp only; split <;> rfl
  | _ => rfl

theorem loadFrom_sameKeyboard (dr : Reg) (a : Word) (s : State) : SameKeyboard (memRead a s).2 (loadFrom dr a s) :=
  ⟨rfl, rfl, rfl⟩

/-- GETC and IN take the character that they wait for (R163). -/
theorem resumeService_takes (w : Waiting) (s : State) : TakesAtMostOne True s (resumeService w s) := by
  rcases resumeService_cases w s with ⟨c, hinput, -, hkbChar, -⟩ | ⟨hempty, hwait⟩
  · exact .inr ⟨trivial, hkbChar ▸ hinput⟩
  · left
    rw [hwait, hempty]
    rfl

/-- BR leaves the keyboard alone. -/
theorem exec_br_sameKeyboard {nzp : BitVec 3} {off : BitVec 9} {s t : State} (h : exec (.br nzp off) s = .next t) :
    SameKeyboard s t := by
  simp only [exec, execBr] at h
  split at h <;> cases h <;> exact ⟨rfl, rfl, rfl⟩

/-- An instruction that is no string service takes at most one character. -/
theorem exec_takes {i : Instr} {s t : State} (hi : i.wf = true) (hputs : i ≠ .puts) (hputsp : i ≠ .putsp)
    (h : exec i s = .next t) : TakesAtMostOne (mayTakeInput i s) s t := by
  cases i with
  | br nzp off => exact (TakesAtMostOne.refl s).thenSame (exec_br_sameKeyboard h)
  | ld dr off => cases h; exact ((memRead_takes _ s).imp And.left).thenSame (loadFrom_sameKeyboard dr _ s)
  | ldr dr base off => cases h; exact ((memRead_takes _ s).imp And.left).thenSame (loadFrom_sameKeyboard dr _ s)
  | ldi dr off => cases h; exact (memRead_indirect_takes _ s).thenSame (loadFrom_sameKeyboard dr _ _)
  | sti sr off => cases h; exact ((memRead_takes _ s).imp And.left).thenSame (memWrite_sameKeyboard _ _ _)
  | st sr off => cases h; exact (TakesAtMostOne.refl s).thenSame (memWrite_sameKeyboard _ _ s)
  | str sr base off => cases h; exact (TakesAtMostOne.refl s).thenSame (memWrite_sameKeyboard _ _ s)
  | getc => cases h; exact resumeService_takes .getc s
  | inp => cases h; exact .ofSame rfl (resumeService_takes .inp { s with out := s.out ++ Config.inPrompt })
  | trap v =>
    rw [exec_trap_of_wf hi] at h
    cases h
    exact .refl s
  | puts => exact absurd rfl hputs
  | putsp => exact absurd rfl hputsp
  | addReg | addImm | andReg | andImm | not | lea | jmp | jsr | jsrr | rti | res | out | halt =>
    cases h
    exact .inl rfl

/-- A fetch takes at most one character, at the data register, and the word is then a BR. -/
theorem fetch_takes (s : State) :
    TakesAtMostOne (s.pc = kbdrAddr ∧ ∃ nzp off, decode (fetch s).1 = .br nzp off) s (fetch s).2 := by
  have hread : TakesAtMostOne _ s (fetch s).2 := memRead_takes s.pc (s.setEngine .running)
  refine hread.imp fun ⟨hpc, c, hc⟩ => ⟨hpc, ?_⟩
  have hword : (fetch s).1 = zext c := hc
  rw [hword]
  exact decode_zext c

/-- A step that fetches an instruction other than the string services takes at most one character, in the fetch or in the
instruction. -/
theorem step_fetching_takes {s t : State} (hputs : decode (fetch s).1 ≠ .puts) (hputsp : decode (fetch s).1 ≠ .putsp)
    (h : exec (decode (fetch s).1) (fetch s).2 = .next t) :
    TakesAtMostOne (s.pc = kbdrAddr ∨ mayTakeInput (decode (fetch s).1) (fetch s).2) s t := by
  rcases fetch_takes s with hsame | ⟨⟨hpc, nzp, off, hbr⟩, htaken⟩
  · exact .ofSame hsame ((exec_takes (decode_wf _) hputs hputsp h).imp .inr)
  · rw [hbr] at h
    exact TakesAtMostOne.thenSame (.inr ⟨.inl hpc, htaken⟩) (exec_br_sameKeyboard h)

/-- A string service takes characters from the front (R69). -/
theorem step_string_takes {s t : State} (hi : decode (fetch s).1 = .puts ∨ decode (fetch s).1 = .putsp)
    (h : exec (decode (fetch s).1) (fetch s).2 = .next t) : t.inputToCome <:+ s.inputToCome := by
  have hfetch : (fetch s).2.inputToCome <:+ s.inputToCome := (SameButStreams.read s.pc (s.setEngine .running)).input
  have hservice : t.inputToCome <:+ (fetch s).2.inputToCome := by
    rcases hi with hi | hi <;> rw [hi] at h
    · exact (servicePuts_same h).input
    · exact (servicePutsp_same h).input
  exact hservice.trans hfetch

/-- What was taken, as a list. -/
theorem TakesAtMostOne.consumed {cause : Prop} {s t : State} (h : TakesAtMostOne cause s t) :
    ∃ consumed, s.inputToCome = consumed ++ t.inputToCome ∧ (consumed ≠ [] → cause) ∧
      (consumed = [] ∨ consumed = [t.kbChar]) := by
  rcases h with hsame | ⟨hcause, htaken⟩
  · exact ⟨[], hsame.symm, absurd rfl, .inl rfl⟩
  · exact ⟨[t.kbChar], htaken, fun _ => hcause, .inr rfl⟩

/-- Settles O26: a terminal state takes nothing, and the other steps at most one character unless a string service runs. -/
theorem inputIsFirstInFirstOut : Obligations.InputIsFirstInFirstOut := by
  intro s t h
  rcases step_cases h with ⟨-, rfl⟩ | ⟨w, he, hw, rfl⟩ | ⟨he, hw, hexec⟩
  · exact ⟨[], rfl, absurd rfl, fun _ => .inl rfl⟩
  · obtain ⟨consumed, hinput, -, hone⟩ := (resumeService_takes w s).consumed
    exact ⟨consumed, hinput, fun _ => ⟨he, .inl (by simp [hw])⟩, fun _ => hone⟩
  · by_cases hi : decode (fetch s).1 = .puts ∨ decode (fetch s).1 = .putsp
    · obtain ⟨consumed, hinput⟩ := step_string_takes hi hexec
      refine ⟨consumed, hinput.symm, fun _ => ⟨he, .inr (.inr ?_)⟩, fun hno => ?_⟩
      · rcases hi with hi | hi <;> rw [hi] <;> trivial
      · rcases hno with hwait | ⟨hputs, hputsp⟩
        · exact absurd hw hwait
        · exact absurd hi (not_or.mpr ⟨hputs, hputsp⟩)
    · obtain ⟨hputs, hputsp⟩ := not_or.mp hi
      obtain ⟨consumed, hinput, hcause, hone⟩ := (step_fetching_takes hputs hputsp hexec).consumed
      exact ⟨consumed, hinput, fun hne => ⟨he, .inr (hcause hne)⟩, fun _ => hone⟩

end Sys2Proof.Machine

/-! ## The encoding (spec/30_encoding.md)

Every word is `wordOf op x`, an opcode and twelve operand bits; decoding it selects, by that opcode, among the fields of
those bits. What a word decodes to is read off this form. -/

namespace Sys2Proof.Machine

open Sys2Proof Sys2Proof.Laws.OpcodeField

/-! ### A word as its opcode and its operand bits (R81, R86) -/

theorem opcodeValue_opcodeMap (b : BitVec 4) : opcodeValue (opcodeMap b) = b := by
  revert b
  decide

theorem exists_eq_wordOf (w : Word) : ∃ op x, w = wordOf op x := by
  refine ⟨opcodeMap (w.extractLsb' 12 4), w.extractLsb' 0 12, ?_⟩
  rw [wordOf, opcodeValue_opcodeMap]
  exact (BitVec.extractLsb'_append_extractLsb' (w := 4) (len := 12)).symm

theorem append_inj {m n : Nat} {a a' : BitVec m} {b b' : BitVec n} : a ++ b = a' ++ b' ↔ a = a' ∧ b = b' := by
  refine ⟨fun h => ?_, fun ⟨ha, hb⟩ => ha ▸ hb ▸ rfl⟩
  have ha := congrArg (BitVec.extractLsb' n m) h
  have hb := congrArg (BitVec.extractLsb' 0 n) h
  rw [BitVec.extractLsb'_append_eq_left, BitVec.extractLsb'_append_eq_left] at ha
  rw [BitVec.extractLsb'_append_eq_right, BitVec.extractLsb'_append_eq_right] at hb
  exact ⟨ha, hb⟩

theorem wordOf_inj {op op' : Opcode} {x x' : BitVec 12} : wordOf op x = wordOf op' x' ↔ op = op' ∧ x = x' :=
  append_inj.trans (and_congr_left' (Function.LeftInverse.injective opcodeMap_opcodeValue).eq_iff)

theorem extractLsb'_wordOf_opcode (op : Opcode) (x : BitVec 12) : (wordOf op x).extractLsb' 12 4 = opcodeValue op :=
  BitVec.extractLsb'_append_eq_left

theorem extractLsb'_wordOf_operands (op : Opcode) (x : BitVec 12) {start len : Nat} (h : start + len ≤ 12) :
    (wordOf op x).extractLsb' start len = x.extractLsb' start len :=
  BitVec.extractLsb'_append_eq_of_add_le h

/-- The fields of R86, of a word with this opcode and these operand bits. -/
def operandFields (op : Opcode) (x : BitVec 12) : DecodedFields where
  opcode     := opcodeValue op
  dr         := x.extractLsb' 9 3
  sr1        := x.extractLsb' 6 3
  sr2        := x.extractLsb' 0 3
  immFlag    := x.extractLsb' 5 1
  imm5       := x.extractLsb' 0 5
  offset6    := x.extractLsb' 0 6
  pcoffset9  := x.extractLsb' 0 9
  pcoffset11 := x.extractLsb' 0 11
  longFlag   := x.extractLsb' 11 1
  trapvect8  := x.extractLsb' 0 8

theorem decode_wordOf (op : Opcode) (x : BitVec 12) : decode (wordOf op x) = selectInstr (operandFields op x) := by
  have hfields : decodeFields (wordOf op x) = operandFields op x := by
    simp [decodeFields, operandFields, extractLsb'_wordOf_opcode, extractLsb'_wordOf_operands]
  rw [decode, hfields]

/-! ### Decoding what was encoded (R82, R91)

The fields of the operand bits, format by format; the name of such a lemma ends in the widths of the format's parts. -/

@[simp] theorem regOfBits_regBits (r : Reg) : regOfBits (regBits r) = r := by
  cases r <;> rfl

@[simp] theorem extractLsb'_append_3_9 (a : BitVec 3) (b : BitVec 9) :
    (a ++ b : BitVec 12).extractLsb' 9 3 = a ∧ (a ++ b : BitVec 12).extractLsb' 0 9 = b :=
  ⟨BitVec.extractLsb'_append_eq_left, BitVec.extractLsb'_append_eq_right⟩

@[simp] theorem extractLsb'_append_1_11 (f : BitVec 1) (b : BitVec 11) :
    (f ++ b : BitVec 12).extractLsb' 11 1 = f ∧ (f ++ b : BitVec 12).extractLsb' 0 11 = b :=
  ⟨BitVec.extractLsb'_append_eq_left, BitVec.extractLsb'_append_eq_right⟩

@[simp] theorem extractLsb'_append_3_3_6 (a b : BitVec 3) (c : BitVec 6) :
    (a ++ b ++ c : BitVec 12).extractLsb' 9 3 = a ∧ (a ++ b ++ c : BitVec 12).extractLsb' 6 3 = b ∧
    (a ++ b ++ c : BitVec 12).extractLsb' 0 6 = c ∧
    (a ++ b ++ c : BitVec 12).extractLsb' 11 1 = a.extractLsb' 2 1 := by
  have hab {start len : Nat} (h : 6 ≤ start) :
      (a ++ b ++ c : BitVec 12).extractLsb' start len = (a ++ b).extractLsb' (start - 6) len :=
    BitVec.extractLsb'_append_eq_of_le h
  exact ⟨(hab (by decide)).trans BitVec.extractLsb'_append_eq_left,
    (hab (by decide)).trans BitVec.extractLsb'_append_eq_right, BitVec.extractLsb'_append_eq_right,
    (hab (by decide)).trans (BitVec.extractLsb'_append_eq_of_le (by decide))⟩

/-- Two register fields and two fields below them, of any widths: the formats of ADD and AND. -/
theorem extractLsb'_append_append_append {m n : Nat} (a b : BitVec 3) (c : BitVec m) (d : BitVec n) :
    (a ++ b ++ c ++ d).extractLsb' (3 + m + n) 3 = a ∧ (a ++ b ++ c ++ d).extractLsb' (m + n) 3 = b ∧
    (a ++ b ++ c ++ d).extractLsb' n m = c ∧ (a ++ b ++ c ++ d).extractLsb' 0 n = d := by
  refine ⟨?_, ?_, ?_, BitVec.extractLsb'_append_eq_right⟩
  · rw [BitVec.extractLsb'_append_eq_of_le (by omega), Nat.add_sub_cancel,
      BitVec.extractLsb'_append_eq_of_le (by omega), Nat.add_sub_cancel, BitVec.extractLsb'_append_eq_left]
  · rw [BitVec.extractLsb'_append_eq_of_le (by omega), Nat.add_sub_cancel,
      BitVec.extractLsb'_append_eq_of_le le_rfl, Nat.sub_self, BitVec.extractLsb'_append_eq_right]
  · rw [BitVec.extractLsb'_append_eq_of_le le_rfl, Nat.sub_self, BitVec.extractLsb'_append_eq_right]

@[simp] theorem extractLsb'_append_3_3_1_5 (a b : BitVec 3) (f : BitVec 1) (d : BitVec 5) :
    (a ++ b ++ f ++ d : BitVec 12).extractLsb' 9 3 = a ∧ (a ++ b ++ f ++ d : BitVec 12).extractLsb' 6 3 = b ∧
    (a ++ b ++ f ++ d : BitVec 12).extractLsb' 5 1 = f ∧ (a ++ b ++ f ++ d : BitVec 12).extractLsb' 0 5 = d :=
  extractLsb'_append_append_append a b f d

@[simp] theorem extractLsb'_append_3_3_3_3 (a b c d : BitVec 3) :
    (a ++ b ++ c ++ d : BitVec 12).extractLsb' 9 3 = a ∧ (a ++ b ++ c ++ d : BitVec 12).extractLsb' 6 3 = b ∧
    (a ++ b ++ c ++ d : BitVec 12).extractLsb' 5 1 = c.extractLsb' 2 1 ∧
    (a ++ b ++ c ++ d : BitVec 12).extractLsb' 0 3 = d := by
  obtain ⟨ha, hb, -, hd⟩ := extractLsb'_append_append_append a b c d
  refine ⟨ha, hb, ?_, hd⟩
  exact (BitVec.extractLsb'_append_eq_of_le (by decide)).trans (BitVec.extractLsb'_append_eq_of_add_le (by decide))

/-- Settles O1: decoding selects by the opcode that `wordOf` put in front, among the fields of the format. -/
theorem decodeOfEncodeIsTheInstruction : Obligations.DecodeOfEncodeIsTheInstruction := by
  intro i hi
  cases i with
  | trap v =>
    rw [encode, decode_wordOf]
    exact (congrArg trapInstr BitVec.extractLsb'_append_eq_right).trans (trapInstr_of_wf hi)
  | getc | out | puts | inp | putsp | halt => rfl
  | _ => simp [encode, decode_wordOf, selectInstr, operandFields, opcodeMap_opcodeValue]

/-! ### The mnemonic of a word (R81, R86) -/

theorem trapInstr_opcode (v : BitVec 8) : (trapInstr v).opcode = .trap := by
  unfold trapInstr
  split <;> rfl

theorem selectInstr_opcode (f : DecodedFields) : (selectInstr f).opcode = opcodeMap f.opcode := by
  unfold selectInstr
  cases opcodeMap f.opcode with
  | trap => exact trapInstr_opcode f.trapvect8
  | add | and | jsr => dsimp only; split <;> rfl
  | _ => rfl

theorem decode_wordOf_opcode (op : Opcode) (x : BitVec 12) : (decode (wordOf op x)).opcode = op := by
  rw [decode_wordOf, selectInstr_opcode]
  exact opcodeMap_opcodeValue op

/-- Settles O2: the mnemonic is that of the opcode field; O1 applies to what a word decodes to, which is well formed. -/
theorem everyWordDecodesByItsOpcodeField : Obligations.EveryWordDecodesByItsOpcodeField :=
  fun w => ⟨decode_wf w, selectInstr_opcode (decodeFields w), decodeOfEncodeIsTheInstruction _ (decode_wf w)⟩

/-! ### The canonical words as numbers (R91) -/

theorem toNat_append_eq_add {m n : Nat} (a : BitVec m) (b : BitVec n) : (a ++ b).toNat = a.toNat * 2 ^ n + b.toNat := by
  rw [BitVec.toNat_append, ← Nat.shiftLeft_add_eq_or_of_lt b.isLt, Nat.shiftLeft_eq]

theorem toNat_wordOf (op : Opcode) (x : BitVec 12) :
    (wordOf op x).toNat = (opcodeValue op).toNat * 2 ^ 12 + x.toNat :=
  toNat_append_eq_add _ _

/-- Settles O3: a word put together from fields is, as a number, their sum, each times its place value. -/
theorem encodeGivesTheNotationTable : Obligations.EncodeGivesTheNotationTable := by
  unfold Obligations.EncodeGivesTheNotationTable
  simp only [encode, toNat_wordOf, opcodeValue, toNat_append_eq_add, BitVec.toNat_ofNat]
  and_intros <;> intros <;> omega

/-! ### The rows of the table (R82)

A row is an opcode with the bits that tell it from the other rows of that opcode. A word has the bits of the row that it
decodes to (`modeBits_decode_wordOf`), so its mask and match tell the opcode and those bits of its instruction. -/

/-- The operand bits that tell the rows of an opcode apart: the mode bit of ADD, AND and JSR, and TRAP's vector. -/
def modeMask : Opcode → BitVec 12
  | .add | .and => BitVec.twoPow 12 5
  | .jsr => BitVec.twoPow 12 11
  | .trap => 0#4 ++ BitVec.allOnes 8
  | .br | .ld | .st | .ldr | .str | .rti | .not | .ldi | .sti | .jmp | .res | .lea => 0#12

/-- What those bits are in the words that decode to an instruction. -/
def modeBits : Instr → BitVec 12
  | .addImm _ _ _ | .andImm _ _ _ => 0x020#12
  | .jsr _ => 0x800#12
  | .trap v => 0#4 ++ v
  | .getc => 0x020#12
  | .out => 0x021#12
  | .puts => 0x022#12
  | .inp => 0x023#12
  | .putsp => 0x024#12
  | .halt => 0x025#12
  | .addReg _ _ _ | .andReg _ _ _ | .jsrr _ | .br _ _ | .ld _ _ | .st _ _ | .ldr _ _ _ | .str _ _ _ | .rti | .not _ _
  | .ldi _ _ | .sti _ _ | .jmp _ | .res | .lea _ _ => 0#12

theorem and_twoPow_eq_ite (x : BitVec 12) (k : Nat) :
    x &&& BitVec.twoPow 12 k = if x.extractLsb' k 1 = 1#1 then BitVec.twoPow 12 k else 0#12 := by
  simp [BitVec.and_twoPow, BitVec.getLsbD_eq_extractLsb']

theorem and_lowByte (x : BitVec 12) : x &&& (0#4 ++ BitVec.allOnes 8) = 0#4 ++ x.extractLsb' 0 8 := by
  conv_lhs => rw [← BitVec.extractLsb'_append_extractLsb' (w := 4) (len := 8) (x := x)]
  rw [BitVec.and_append, BitVec.and_zero, BitVec.and_allOnes]

theorem modeBits_trapInstr (v : BitVec 8) : modeBits (trapInstr v) = 0#4 ++ v := by
  rcases serviceVector_or_wf v with hv | hwf
  · rcases hv with rfl | rfl | rfl | rfl | rfl | rfl <;> rfl
  · exact congrArg modeBits (trapInstr_of_wf hwf)

theorem modeBits_decode_wordOf (op : Opcode) (x : BitVec 12) : modeBits (decode (wordOf op x)) = x &&& modeMask op := by
  rw [decode_wordOf]
  cases op with
  | trap => exact (modeBits_trapInstr _).trans (and_lowByte x).symm
  | add | and | jsr => exact (apply_ite modeBits _ _ _).trans (and_twoPow_eq_ite x _).symm
  | _ => exact BitVec.and_zero.symm

theorem wordOf_and_eq_iff {op op' : Opcode} {x m v : BitVec 12} :
    wordOf op x &&& (0xF#4 ++ m) = wordOf op' v ↔ op = op' ∧ x &&& m = v := by
  have hop : opcodeValue op &&& 0xF#4 = opcodeValue op := BitVec.and_allOnes
  rw [← wordOf_inj, wordOf, BitVec.and_append, hop]
  exact Iff.rfl

/-- A row's mask and match are those of the words that decode to an instruction with the row's opcode and bits. -/
theorem and_rowMask_eq_iff (w : Word) (op : Opcode) (v : BitVec 12) :
    w &&& (0xF#4 ++ modeMask op) = wordOf op v ↔ (decode w).opcode = op ∧ modeBits (decode w) = v := by
  obtain ⟨op', x, rfl⟩ := exists_eq_wordOf w
  rw [wordOf_and_eq_iff, decode_wordOf_opcode, modeBits_decode_wordOf]
  exact and_congr_right fun h => h ▸ Iff.rfl

/-- A well-formed TRAP has the bits of no service (R160). -/
theorem modeBits_trap_ne {v : BitVec 8} (h : (Instr.trap v).wf = true) :
    modeBits (.trap v) ≠ 0x020#12 ∧ modeBits (.trap v) ≠ 0x021#12 ∧ modeBits (.trap v) ≠ 0x022#12 ∧
    modeBits (.trap v) ≠ 0x023#12 ∧ modeBits (.trap v) ≠ 0x024#12 ∧ modeBits (.trap v) ≠ 0x025#12 := by
  have hnat : (modeBits (.trap v)).toNat = v.toNat := (toNat_append_eq_add 0#4 v).trans (by simp)
  simp only [ne_eq, ← BitVec.toNat_inj, hnat]
  exact toNat_of_trap_wf h

/-- The row TRAP: its opcode, and a vector that no service has (log 19). -/
theorem trapRow_iff (w : Word) :
    w &&& 0xF000#16 = 0xF000#16 ∧ serviceVectors.contains (w.extractLsb' 0 8) = false ↔ ∃ v, decode w = .trap v := by
  obtain ⟨op, x, rfl⟩ := exists_eq_wordOf w
  have hop : wordOf op x &&& 0xF000#16 = 0xF000#16 ↔ op = .trap :=
    (wordOf_and_eq_iff (m := 0#12) (op' := .trap) (v := 0#12)).trans (and_iff_left BitVec.and_zero)
  rw [hop, extractLsb'_wordOf_operands _ _ (by decide)]
  constructor
  · rintro ⟨rfl, hv⟩
    have hwf : (Instr.trap (x.extractLsb' 0 8)).wf = true := by rw [Instr.wf, hv, Bool.not_false]
    exact ⟨_, (decode_wordOf .trap x).trans (trapInstr_of_wf hwf)⟩
  · rintro ⟨v, hv⟩
    have hwf := decode_wf (wordOf op x)
    have hop := decode_wordOf_opcode op x
    have hbits := modeBits_decode_wordOf op x
    rw [hv] at hwf hop hbits
    obtain rfl : .trap = op := hop
    obtain rfl : v = x.extractLsb' 0 8 := (append_inj.mp (hbits.trans (and_lowByte x))).2
    exact ⟨rfl, Bool.not_eq_true' _ ▸ hwf⟩

/-- Settles O4: by its mask and match a word decodes to an instruction with the row's opcode and bits, and those are the
instructions of the row's constructor. -/
theorem maskAndMatchSelectTheRow : Obligations.MaskAndMatchSelectTheRow := by
  intro w
  have hwf := decode_wf w
  have row := and_rowMask_eq_iff w
  refine ⟨(row .br 0#12).trans ?_, (row .add 0#12).trans ?_, (row .add 0x020#12).trans ?_, (row .ld 0#12).trans ?_,
    (row .st 0#12).trans ?_, (row .jsr 0#12).trans ?_, (row .jsr 0x800#12).trans ?_, (row .and 0#12).trans ?_,
    (row .and 0x020#12).trans ?_, (row .ldr 0#12).trans ?_, (row .str 0#12).trans ?_, (row .rti 0#12).trans ?_,
    (row .not 0#12).trans ?_, (row .ldi 0#12).trans ?_, (row .sti 0#12).trans ?_, (row .jmp 0#12).trans ?_,
    (row .res 0#12).trans ?_, (row .lea 0#12).trans ?_, (row .trap 0x020#12).trans ?_, (row .trap 0x021#12).trans ?_,
    (row .trap 0x022#12).trans ?_, (row .trap 0x023#12).trans ?_, (row .trap 0x024#12).trans ?_,
    (row .trap 0x025#12).trans ?_, trapRow_iff w⟩
  all_goals
    generalize decode w = i at hwf ⊢
    cases i with
    | trap v => simp [Instr.opcode, modeBits_trap_ne hwf]
    | _ => simp [Instr.opcode, modeBits]

/-! ### Unused bits (R88)

Changing operand bits under a mask leaves every field outside the mask, and the fields that are read are outside it. -/

theorem extractLsb'_xor_unused {x e u : BitVec 12} {start len : Nat} (h : u.extractLsb' start len = 0#len) :
    (x ^^^ (e &&& u)).extractLsb' start len = x.extractLsb' start len := by
  rw [BitVec.extractLsb'_xor, BitVec.extractLsb'_and, h, BitVec.and_zero, BitVec.xor_zero]

theorem wordOf_xor_and (op : Opcode) (x u : BitVec 12) (d : Word) :
    wordOf op x ^^^ (d &&& (0#4 ++ u)) = wordOf op (x ^^^ (d.extractLsb' 0 12 &&& u)) := by
  conv_lhs => rw [← BitVec.extractLsb'_append_extractLsb' (w := 4) (len := 12) (x := d)]
  rw [BitVec.and_append, wordOf, BitVec.xor_append, BitVec.and_zero, BitVec.xor_zero, wordOf]

/-- For a row with the mask `m` and the match `v`, whose unused operand bits are `u`. -/
theorem decode_xor_unused (op : Opcode) (m v u : BitVec 12)
    (h : ∀ x e, x &&& m = v → decode (wordOf op (x ^^^ (e &&& u))) = decode (wordOf op x)) (w d : Word)
    (hw : w &&& (0xF#4 ++ m) = wordOf op v) : decode (w ^^^ (d &&& (0#4 ++ u))) = decode w := by
  obtain ⟨op', x, rfl⟩ := exists_eq_wordOf w
  obtain ⟨rfl, hx⟩ := wordOf_and_eq_iff.mp hw
  rw [wordOf_xor_and]
  exact h x _ hx

theorem ne_one_of_and_twoPow_eq_zero {x : BitVec 12} {k : Nat} (hk : BitVec.twoPow 12 k ≠ 0#12)
    (h : x &&& BitVec.twoPow 12 k = 0#12) : x.extractLsb' k 1 ≠ 1#1 := by
  intro hset
  rw [and_twoPow_eq_ite, if_pos hset] at h
  exact hk h

/-- Settles O5: the fields that decoding selects keep their value; in ADD, AND and JSR the mode bit selects them. -/
theorem unusedBitsAreIgnored : Obligations.UnusedBitsAreIgnored := by
  refine fun w d => ⟨decode_xor_unused .add (modeMask .add) 0#12 0x018#12 (fun x e h => ?add) w d,
    decode_xor_unused .and (modeMask .and) 0#12 0x018#12 (fun x e h => ?and) w d,
    decode_xor_unused .not 0#12 0#12 0x03F#12 (fun x e h => ?not) w d,
    decode_xor_unused .jmp 0#12 0#12 0xE3F#12 (fun x e h => ?jmp) w d,
    decode_xor_unused .jsr (modeMask .jsr) 0#12 0x63F#12 (fun x e h => ?jsr) w d,
    decode_xor_unused .trap 0#12 0#12 0xF00#12 (fun x e h => ?trap) w d,
    decode_xor_unused .rti 0#12 0#12 0xFFF#12 (fun x e h => ?rti) w d,
    decode_xor_unused .res 0#12 0#12 0xFFF#12 (fun x e h => ?res) w d⟩
  case add | and | jsr =>
    have hmode := ne_one_of_and_twoPow_eq_zero (by decide) h
    simp [decode_wordOf, selectInstr, operandFields, opcodeMap_opcodeValue, extractLsb'_xor_unused, hmode]
  case not | jmp | trap | rti | res =>
    simp [decode_wordOf, selectInstr, operandFields, opcodeMap_opcodeValue, extractLsb'_xor_unused]

/-- Settles O6: the decoder computes each. -/
theorem wordsWrittenOutDecode : Obligations.WordsWrittenOutDecode := by
  unfold Obligations.WordsWrittenOutDecode
  decide

end Sys2Proof.Machine

/-! ## BR (spec/40_branch.md R110, R111) -/

namespace Sys2Proof.Machine

open Sys2Proof

/-- BR sets PC, to what it was when the branch is not taken, and nothing else (R110). -/
theorem exec_br (nzp : BitVec 3) (off : BitVec 9) (s : State) :
    exec (.br nzp off) s = .next (s.setPc (if branchTaken nzp s then s.pc + sext off else s.pc)) := by
  rw [exec, execBr]
  split <;> rfl

/-- BR's test, flag by flag: bits 2, 1 and 0 of COND are NEGATIVE, ZERO and POSITIVE (R23, decision D2). -/
theorem branchTaken_ofBool (n z p : Bool) (s : State) :
    branchTaken (BitVec.ofBool n ++ BitVec.ofBool z ++ BitVec.ofBool p) s =
      ((n && s.cond.getLsbD 2) || (z && s.cond.getLsbD 1) || (p && s.cond.getLsbD 0)) := by
  rw [branchTaken]
  generalize s.cond = c
  revert n z p c
  decide

/-- Settles O35: BR writes PC alone, by the test flag by flag; with COND known only the mask's bit for its flag is left. -/
theorem brAddsTheOffsetWhenTheMaskMeetsCond : Obligations.BrAddsTheOffsetWhenTheMaskMeetsCond := by
  intro n z p off s
  refine ⟨_, exec_br _ off s, ?general, fun hN => ?negative, fun hZ => ?zero, fun hP => ?positive, fun hnone => ?noFlag,
    fun _ => rfl, rfl, fun _ => rfl, ⟨rfl, rfl, rfl⟩, ⟨rfl, rfl⟩, rfl⟩
  case general => rw [State.setPc_pc, branchTaken_ofBool]
  case negative => simp [branchTaken_ofBool, hN, condN]
  case zero => simp [branchTaken_ofBool, hZ, condZ]
  case positive => simp [branchTaken_ofBool, hP, condP]
  case noFlag => simp [branchTaken_ofBool, hnone]

end Sys2Proof.Machine

/-! ## ADD, AND and NOT (spec/41_alu.md)

Each writes one result to DR with its flags (R120): the result is computed in the state before the write, so that what the
registers named have in common does not matter. -/

namespace Sys2Proof.Machine

open Sys2Proof

/-! ### What each writes (R121, R122, R123, R124, R126) -/

theorem exec_addReg (dr sr1 sr2 : Reg) (s : State) :
    exec (.addReg dr sr1 sr2) s = .next (s.setRegCC dr (s.reg sr1 + s.reg sr2)) := rfl

theorem exec_addImm (dr sr1 : Reg) (imm : BitVec 5) (s : State) :
    exec (.addImm dr sr1 imm) s = .next (s.setRegCC dr (s.reg sr1 + sext imm)) := rfl

theorem exec_andReg (dr sr1 sr2 : Reg) (s : State) :
    exec (.andReg dr sr1 sr2) s = .next (s.setRegCC dr (s.reg sr1 &&& s.reg sr2)) := rfl

theorem exec_andImm (dr sr1 : Reg) (imm : BitVec 5) (s : State) :
    exec (.andImm dr sr1 imm) s = .next (s.setRegCC dr (s.reg sr1 &&& sext imm)) := rfl

theorem exec_not (dr sr : Reg) (s : State) : exec (.not dr sr) s = .next (s.setRegCC dr (~~~ s.reg sr)) := rfl

/-! ### The results, as numbers and bit by bit, and their flags -/

theorem eq_add_of_toNat {v a b : Word} (h : v.toNat = (a.toNat + b.toNat) % 65536) : v = a + b :=
  BitVec.eq_of_toNat_eq (h.trans (BitVec.toNat_add a b).symm)

theorem eq_and_of_getLsbD {v a b : Word} (h : ∀ k, v.getLsbD k = (a.getLsbD k && b.getLsbD k)) : v = a &&& b :=
  BitVec.eq_of_getLsbD_eq fun k _ => (h k).trans BitVec.getLsbD_and.symm

theorem eq_not_of_toNat {v a : Word} (h : v.toNat = 0xFFFF - a.toNat) : v = ~~~ a :=
  BitVec.eq_of_toNat_eq (h.trans (BitVec.toNat_not (x := a)).symm)

theorem FlagsOf.negative {v : Word} {c : BitVec 3} (h : FlagsOf v c) (hv : 0x8000 ≤ v.toNat) : c = condN := h.2.1 hv

/-! ### The immediate (R122, R124) -/

/-- In immediate mode the decoder selects the field imm5. -/
theorem imm5_of_selectInstr {f : DecodedFields} {dr sr1 : Reg} {imm : BitVec 5}
    (h : selectInstr f = .addImm dr sr1 imm ∨ selectInstr f = .andImm dr sr1 imm) : imm = f.imm5 := by
  have hop : opcodeMap f.opcode = .add ∨ opcodeMap f.opcode = .and := by
    rw [← selectInstr_opcode]
    exact h.imp (congrArg Instr.opcode) (congrArg Instr.opcode)
  rcases hop with hop | hop
  all_goals
    simp only [selectInstr, hop] at h
    split at h
    case isTrue =>
      obtain ⟨-, -, himm⟩ : _ ∧ _ ∧ f.imm5 = imm := by simpa using h
      exact himm.symm
    case isFalse => simp at h

/-! ### What they do and leave alone (R120, R125) -/

/-- Settles O36: the old sources give the result, and writing it with its flags changes nothing else. -/
theorem aluReadsItsSourcesBeforeWritingDr : Obligations.AluReadsItsSourcesBeforeWritingDr := by
  refine ⟨fun i dr v s h => ?effect, fun w dr sr1 imm h => imm5_of_selectInstr h⟩
  case effect =>
    refine ⟨s.setRegCC dr v, ?_, setRegCC_spec s dr v⟩
    rcases h with ⟨sr1, sr2, rfl, hv⟩ | ⟨sr1, imm, rfl, hv⟩ | ⟨sr1, sr2, rfl, hv⟩ | ⟨sr1, imm, rfl, hv⟩ | ⟨sr, rfl, hv⟩
    · rw [exec_addReg, eq_add_of_toNat hv]
    · rw [exec_addImm, eq_add_of_toNat hv]
    · rw [exec_andReg, eq_and_of_getLsbD hv]
    · rw [exec_andImm, eq_and_of_getLsbD hv]
    · rw [exec_not, eq_not_of_toNat hv]

/-- Settles O37: ADD writes the sum modulo 65536, and the flags are those of that word. -/
theorem addDropsTheCarryAndFlagsTheStoredSum : Obligations.AddDropsTheCarryAndFlagsTheStoredSum := by
  intro i dr a b s h
  have hexec : exec i s = .next (s.setRegCC dr (a + b)) := by
    rcases h with ⟨sr1, sr2, rfl, rfl, rfl⟩ | ⟨sr1, imm, rfl, rfl, rfl⟩
    · exact exec_addReg dr sr1 sr2 s
    · exact exec_addImm dr sr1 imm s
  have hsum : (a + b).toNat = (a.toNat + b.toNat) % 65536 := BitVec.toNat_add a b
  obtain ⟨hdr, hflags, frame⟩ := setRegCC_spec s dr (a + b)
  refine ⟨_, hexec, ?_⟩
  rw [hdr]
  exact ⟨fun hfits => by omega, fun hcarry => by omega, hflags, fun ha hb hpast => hflags.negative (by omega), frame⟩

end Sys2Proof.Machine

/-! ## LD, LDI, LDR and LEA (spec/42_load.md)

Each ends by writing DR with its flags (R130): LD, LDR and LDI by a load, LDI after the read of the pointer, which changes
nothing but the keyboard, and LEA without a read. -/

namespace Sys2Proof.Machine

open Sys2Proof

/-! ### What each writes (R131, R132, R133, R134) -/

theorem exec_ld (dr : Reg) (off : BitVec 9) (s : State) :
    exec (.ld dr off) s = .next (loadFrom dr (s.pc + sext off) s) := rfl

theorem exec_ldi (dr : Reg) (off : BitVec 9) (s : State) :
    exec (.ldi dr off) s =
      .next (loadFrom dr (memRead (s.pc + sext off) s).1 (memRead (s.pc + sext off) s).2) := rfl

theorem exec_ldr (dr base : Reg) (off : BitVec 6) (s : State) :
    exec (.ldr dr base off) s = .next (loadFrom dr (s.reg base + sext off) s) := rfl

theorem exec_lea (dr : Reg) (off : BitVec 9) (s : State) :
    exec (.lea dr off) s = .next (s.setRegCC dr (s.pc + sext off)) := rfl

/-! ### The register field (R82) -/

/-- The decoder selects the field DR for the register that a load writes. -/
theorem dr_of_selectInstr {f : DecodedFields} {dr : Reg}
    (h : (∃ off, selectInstr f = .ld dr off) ∨ (∃ off, selectInstr f = .ldi dr off) ∨
      (∃ base off, selectInstr f = .ldr dr base off) ∨ (∃ off, selectInstr f = .lea dr off)) :
    dr = regOfBits f.dr := by
  rcases h with ⟨off, h⟩ | ⟨off, h⟩ | ⟨base, off, h⟩ | ⟨off, h⟩
  all_goals
    have hop := (selectInstr_opcode f).symm.trans (congrArg Instr.opcode h)
    simp only [selectInstr, hop, Instr.opcode] at h
    cases h
    rfl

/-! ### What they do and leave alone (R130, R132) -/

/-- Settles O38: a load and the writing of a result change nothing else; before it, LDI's pointer read changes the keyboard
only. -/
theorem loadsWriteDrAndTheFlags : Obligations.LoadsWriteDrAndTheFlags := by
  refine ⟨fun dr off s => ⟨_, exec_ld dr off s, ?ld⟩, fun dr off s => ⟨_, exec_ldi dr off s, ?ldi⟩,
    fun dr base off s => ⟨_, exec_ldr dr base off s, ?ldr⟩, fun dr off s => ⟨_, exec_lea dr off s, ?lea⟩,
    fun w dr h => dr_of_selectInstr h⟩
  case ld | ldr =>
    obtain ⟨hdr, hflags, frame⟩ := loadFrom_spec dr _ s
    exact ⟨hdr, hdr ▸ hflags, frame⟩
  case ldi =>
    have pointer := SameButStreams.read (s.pc + sext off) s
    obtain ⟨hdr, hflags, hregs, hpc, hmem, hkeyboard, ⟨hengine, hwaiting⟩, hout⟩ :=
      loadFrom_spec dr (memRead (s.pc + sext off) s).1 (memRead (s.pc + sext off) s).2
    exact ⟨hdr, hkeyboard, hdr ▸ hflags, fun q hq => (hregs q hq).trans (pointer.reg q), hpc.trans pointer.pc,
      fun b => (hmem b).trans (cell_of_mem pointer.mem b),
      ⟨hengine.trans pointer.engine, hwaiting.trans pointer.waiting⟩, hout.trans (memRead_out _ s)⟩
  case lea =>
    obtain ⟨hdr, hflags, frame⟩ := setRegCC_spec s dr (s.pc + sext off)
    exact ⟨hdr, hdr.symm ▸ hflags, frame⟩

/-- LDI through an ordinary location that holds an ordinary address loads the cell at that address (R132). -/
theorem exec_ldi_ordinary (dr : Reg) {off : BitVec 9} {s : State} {a : Word}
    (hlocation : isDevice (s.pc + sext off) = false) (hpointer : s.cell (s.pc + sext off) = a)
    (haddr : isDevice a = false) : ∃ u, exec (.ldi dr off) s = .next u ∧ u.reg dr = s.cell a := by
  refine ⟨_, exec_ldi dr off s, ?_⟩
  rw [memRead_ordinary hlocation, hpointer]
  obtain ⟨hdr, -⟩ := loadFrom_spec dr a s
  rw [hdr, memRead_ordinary haddr]

/-- Settles O39: after the ST the location holds the address, and the cell at the address is as it was. -/
theorem ldiThroughAStoredAddressYieldsItsContent : Obligations.LdiThroughAStoredAddressYieldsItsContent := by
  intro s t sr dr off off' hwf hlocation haddr hne hst pc' hpc'
  obtain rfl : memWrite (s.pc + sext off) (s.reg sr) s = t := Host.Outcome.next.inj hst
  have hpointer := memWrite_cell_same hwf hlocation (s.reg sr)
  have hcontent := memWrite_cell_ne s hne (s.reg sr)
  rw [← hpc'] at hlocation hpointer hcontent ⊢
  obtain ⟨u, hldi, hdr⟩ := exec_ldi_ordinary dr (s := (memWrite (pc' + sext off') (s.reg sr) s).setPc pc') hlocation
    hpointer haddr
  exact ⟨u, hldi, hdr.trans hcontent⟩

end Sys2Proof.Machine

/-! ## ST, STI and STR (spec/43_store.md)

Each is one write of SR through the memory port (R140), STI's after the read of the pointer, which changes nothing but the
keyboard. -/

namespace Sys2Proof.Machine

open Sys2Proof

/-! ### What each writes (R141, R142, R143) -/

theorem exec_st (sr : Reg) (off : BitVec 9) (s : State) :
    exec (.st sr off) s = .next (memWrite (s.pc + sext off) (s.reg sr) s) := rfl

theorem exec_sti (sr : Reg) (off : BitVec 9) (s : State) :
    exec (.sti sr off) s =
      .next (memWrite (memRead (s.pc + sext off) s).1 (s.reg sr) (memRead (s.pc + sext off) s).2) := by
  rw [← memRead_reg (s.pc + sext off) s sr]
  rfl

theorem exec_str (sr base : Reg) (off : BitVec 6) (s : State) :
    exec (.str sr base off) s = .next (memWrite (s.reg base + sext off) (s.reg sr) s) := rfl

/-! ### The register field (R82) -/

/-- The decoder selects the field DR, at the same bits as SR, for the register that a store writes to memory. -/
theorem sr_of_selectInstr {f : DecodedFields} {sr : Reg}
    (h : (∃ off, selectInstr f = .st sr off) ∨ (∃ off, selectInstr f = .sti sr off) ∨
      (∃ base off, selectInstr f = .str sr base off)) : sr = regOfBits f.dr := by
  rcases h with ⟨off, h⟩ | ⟨off, h⟩ | ⟨base, off, h⟩
  all_goals
    have hop := (selectInstr_opcode f).symm.trans (congrArg Instr.opcode h)
    simp only [selectInstr, hop, Instr.opcode] at h
    cases h
    rfl

/-! ### What they do and leave alone (R140) -/

/-- The word fetched at an ordinary address is the cell there, whatever the engine state (R66). -/
theorem fetch_setPc_ordinary {a : Word} (ha : isDevice a = false) (s : State) : (fetch (s.setPc a)).1 = s.cell a := by
  rw [fetch, State.setPc_pc, memRead_ordinary ha, State.setEngine_cell, State.setPc_cell]

/-- Settles O40: each store is a write of SR to `m`, the state that STI's pointer read leaves, which differs from `s` in the
keyboard only. -/
theorem storesWriteOneCellAndNothingElse : Obligations.StoresWriteOneCellAndNothingElse := by
  refine ⟨fun i sr a m s hwf h => ?effect, fun w sr h => sr_of_selectInstr h⟩
  case effect =>
    obtain ⟨hexec, hm, hmout⟩ :
        exec i s = .next (memWrite a (s.reg sr) m) ∧ SameButStreams s m ∧ m.out = s.out := by
      rcases h with ⟨off, rfl, rfl, rfl⟩ | ⟨off, rfl, rfl, rfl⟩ | ⟨base, off, rfl, rfl, rfl⟩
      · exact ⟨exec_st sr off m, .refl m, rfl⟩
      · exact ⟨exec_sti sr off s, .read _ s, memRead_out _ s⟩
      · exact ⟨exec_str sr base off m, .refl m, rfl⟩
    have hmcell := cell_of_mem hm.mem
    refine ⟨_, hexec, fun hkbsr hkbdr => ?ordinary, fun hdevice b => ?device,
      fun b hb => (memWrite_cell_ne m hb _).trans (hmcell b), fun q => (memWrite_reg a _ m q).trans (hm.reg q),
      (memWrite_cond a _ m).trans hm.cond, (memWrite_pc a _ m).trans hm.pc, memWrite_sameKeyboard a _ m,
      ⟨(memWrite_engine a _ m).trans hm.engine, (memWrite_waiting a _ m).trans hm.waiting⟩,
      (memWrite_out a _ m).trans hmout⟩
    case ordinary =>
      have ha := isDevice_eq_false hkbsr hkbdr
      have hcell := memWrite_cell_same (hm.mem ▸ hwf) ha (s.reg sr)
      exact ⟨hcell, (fetch_setPc_ordinary ha _).trans hcell⟩
    case device =>
      have ha : isDevice a = true := by rcases hdevice with rfl | rfl <;> rfl
      rw [memWrite_device ha, hmcell]

end Sys2Proof.Machine

/-! ## JMP, JSR and JSRR (spec/44_jump.md)

JMP sets PC alone; a call saves the return address in R7 before it sets PC, in both modes (R151, R152). -/

namespace Sys2Proof.Machine

open Sys2Proof

/-! ### What each writes (R150, R151, R152) -/

theorem exec_jmp (base : Reg) (s : State) : exec (.jmp base) s = .next (s.setPc (s.reg base)) := rfl

theorem exec_jsr (off : BitVec 11) (s : State) :
    exec (.jsr off) s = .next ((saveReturn s).setPc (s.pc + sext off)) := rfl

theorem exec_jsrr (base : Reg) (s : State) :
    exec (.jsrr base) s = .next ((saveReturn s).setPc ((saveReturn s).reg base)) := rfl

/-! ### What they do and leave alone (R153) -/

/-- A transfer of control keeps all state but PC (R150). -/
theorem setPc_spec (s : State) (a : Word) :
    let t := s.setPc a
    t.pc = a ∧ SameRegs s t ∧ t.cond = s.cond ∧ SameMemory s t ∧ SameKeyboard s t ∧ SameControl s t ∧ t.out = s.out :=
  ⟨State.setPc_pc s a, State.setPc_reg s a, rfl, fun _ => rfl, ⟨rfl, rfl, rfl⟩, ⟨rfl, rfl⟩, rfl⟩

/-- A call keeps all state but R7, which receives the return address, and PC (R151, R152). -/
theorem call_spec (s : State) (a : Word) :
    let t := (saveReturn s).setPc a
    t.pc = a ∧ t.reg .r7 = s.pc ∧ SameRegsBut .r7 s t ∧ t.cond = s.cond ∧ SameMemory s t ∧ SameKeyboard s t ∧
      SameControl s t ∧ t.out = s.out := by
  obtain ⟨hpc, hregs, frame⟩ := setPc_spec (saveReturn s) a
  exact ⟨hpc, (hregs .r7).trans (State.setReg_reg_same s .r7 s.pc),
    fun q hq => (hregs q).trans (State.setReg_reg_ne s hq s.pc), frame⟩

/-- Settles O41: JMP is a transfer of control, JSR and JSRR are calls; JSRR reads its base after the link is written. -/
theorem jumpsSetPcAndCallsLinkInR7 : Obligations.JumpsSetPcAndCallsLinkInR7 := by
  refine ⟨fun base s => ⟨_, exec_jmp base s, setPc_spec s _⟩, fun off s => ⟨_, exec_jsr off s, call_spec s _⟩,
    fun base s => ⟨_, exec_jsrr base s, ?otherBase, ?baseR7, (call_spec s _).2⟩⟩
  case otherBase => exact fun hbase => (exec_jsrr_pc (exec_jsrr base s)).trans (if_neg hbase)
  case baseR7 => exact fun hbase => (exec_jsrr_pc (exec_jsrr base s)).trans (if_pos hbase)

end Sys2Proof.Machine

/-! ## TRAP and the six services (spec/45_trap.md)

GETC and IN are `resumeService`, from the state itself or after the prompt: with a character to come it finishes, without
one it waits. PUTS and PUTSP are their loops, which end, and of which the words read one after the other determine the
output. -/

namespace Sys2Proof.Machine

open Sys2Proof

/-! ### What a service leaves alone (R161) -/

theorem canon_opcode (i : Instr) : (canon i).opcode = i.opcode := by
  cases i with
  | trap v => exact trapInstr_opcode v
  | _ => rfl

/-- By the tables, a service sets no flags, writes R0 or no register, and does not write PC. -/
theorem service_tables {i : Instr} (hi : i.opcode = .trap) :
    flagReg i = none ∧ writesPc i = false ∧ ∀ r, r ≠ .r0 → regWritten i ≠ some r := by
  cases i with
  | getc | inp => exact ⟨rfl, rfl, fun r hr e => hr (Option.some.inj e).symm⟩
  | trap | out | puts | putsp | halt => exact ⟨rfl, rfl, fun _ _ => nofun⟩
  | _ => cases hi

theorem exec_service_mem {i : Instr} {s t : State} (hwf : i.wf = true) (hi : i.opcode = .trap)
    (h : exec i s = .next t) : t.mem = s.mem := by
  cases i with
  | trap v =>
    rw [exec_trap_of_wf hwf] at h
    cases h
    rfl
  | getc => cases h; exact resumeService_mem .getc s
  | inp => cases h; exact resumeService_mem .inp _
  | puts => exact (servicePuts_same h).mem
  | putsp => exact (servicePutsp_same h).mem
  | out | halt => cases h; rfl
  | _ => cases hi

/-- Settles O43: a TRAP is its service, whose effect writes no register but the one of the table. -/
theorem servicesWriteNoRegisterButR0 : Obligations.ServicesWriteNoRegisterButR0 := by
  intro i s t hi h
  have hservice : (canon i).opcode = .trap := by
    rw [canon_opcode]
    rcases hi with rfl | rfl | rfl | rfl | rfl | rfl | ⟨v, rfl⟩ <;> rfl
  obtain ⟨hwf, hcanon, -⟩ := canon_spec i
  rw [← hcanon] at h
  have heff := exec_effect hwf h
  obtain ⟨hflag, hpc, hreg⟩ := service_tables hservice
  rw [hflag, hpc] at heff
  refine ⟨heff.pc_eq, heff.cond_eq, fun r hr => heff.reg_eq (.inl (hreg r hr)),
    cell_of_mem (exec_service_mem hwf hservice h), fun hnone r => heff.reg_eq (.inl ?_)⟩
  rcases hnone with rfl | rfl | rfl | rfl <;> exact nofun

/-! ### Which service TRAP runs (R160, R171) -/

/-- Settles O42: the vectors beside the six services' are those of a well-formed TRAP. -/
theorem trapSelectsTheServiceOfItsVector : Obligations.TrapSelectsTheServiceOfItsVector := by
  refine fun s => ⟨rfl, rfl, rfl, rfl, rfl, rfl, fun v hv => exec_trap_of_wf ?_ s⟩
  refine (serviceVector_or_wf v).resolve_left ?_
  rintro (rfl | rfl | rfl | rfl | rfl | rfl) <;> exact absurd hv (by decide)

/-! ### GETC and IN (R163, R164, R167) -/

/-- With a character to come, a service that waits for one finishes with it. -/
theorem resumeService_of_input (w : Waiting) {s : State} {c : Byte} {rest : List Byte} (h : s.inputToCome = c :: rest) :
    let t := resumeService w s
    (t.reg .r0).toNat = c.toNat ∧ SameRegsBut .r0 s t ∧ t.inputToCome = rest ∧ t.kbChar = c ∧
      t.out = s.out ++ (if w = .inp then [c] else []) ∧ t.cond = s.cond ∧ t.pc = s.pc ∧ SameMemory s t ∧
      t.engine = s.engine ∧ t.waiting = none := by
  rcases resumeService_cases w s with ⟨c', hinput, hwaiting, hkbChar, hregs, hout⟩ | ⟨hempty, -⟩
  · obtain ⟨rfl, rfl⟩ := List.cons.inj (h.symm.trans hinput)
    have hr0 : (resumeService w s).reg .r0 = zext c :=
      (reg_of_regs_set hregs .r0).trans (State.setReg_reg_same s .r0 (zext c))
    exact ⟨by rw [hr0, toNat_zext c (by decide)], fun _ => resumeService_reg_ne w s, rfl, hkbChar, hout,
      resumeService_cond w s, resumeService_pc w s, cell_of_mem (resumeService_mem w s),
      resumeService_engine w s, hwaiting⟩
  · cases h.symm.trans hempty

/-- Without a character to come it waits, and nothing else changes. -/
theorem resumeService_of_no_input (w : Waiting) {s : State} (h : s.inputToCome = []) :
    resumeService w s = { s with kbq := [], arrivals := [], waiting := some w } := by
  rcases resumeService_cases w s with ⟨c, hinput, -⟩ | ⟨-, hwait⟩
  · cases h.symm.trans hinput
  · exact hwait

/-- With a character pending, the whole state after it. -/
theorem resumeService_of_pending (w : Waiting) {s : State} {c : Byte} {q : List Byte} (h : s.kbq = c :: q) :
    resumeService w s = finishService w c { s with kbq := q, kbChar := c, waiting := none } := by
  rw [resumeService, takeChar_pending s h]

/-- Settles O44: GETC finishes with the first character to come. -/
theorem getcGivesTheNextCharacterUnechoed : Obligations.GetcGivesTheNextCharacterUnechoed := by
  intro s c rest h
  obtain ⟨hr0, hregs, hinput, hkbChar, hout, frame⟩ := resumeService_of_input .getc h
  exact ⟨_, rfl, hr0, hregs, hinput, hkbChar, hout.trans (List.append_nil _), frame⟩

/-- Settles O45: IN finishes with the first character to come, from the state with the prompt written. -/
theorem inPromptsEchoesAndGivesTheNextCharacter : Obligations.InPromptsEchoesAndGivesTheNextCharacter :=
  fun s _ _ h => ⟨_, rfl, resumeService_of_input .inp (s := { s with out := s.out ++ Config.inPrompt }) h⟩

/-- Settles O46: each of the three asks for a character in vain. -/
theorem servicesWaitWhileNoCharacterComes : Obligations.ServicesWaitWhileNoCharacterComes := by
  intro s h
  refine ⟨congrArg _ (resumeService_of_no_input .getc h),
    congrArg _ (resumeService_of_no_input .inp (s := { s with out := s.out ++ Config.inPrompt }) h), fun w he hw => ?_⟩
  rw [step_waiting (by rw [he]; rfl) hw, resumeService_of_no_input w h, ← hw]

/-- A service that found no input, once a character `c` is appended, goes on as it would have with `c` pending from the
start. -/
theorem step_resumeService_typed (w : Waiting) {s : State} (c : Byte) (hinput : s.inputToCome = [])
    (he : s.engine = .running) :
    (resumeService w s).waiting = some w ∧
      step { resumeService w s with kbq := (resumeService w s).kbq ++ [c] } =
        .next (resumeService w { s with kbq := [c], arrivals := [] }) := by
  rw [resumeService_of_no_input w hinput, step_waiting (w := w) (by rw [he]; rfl) rfl,
    resumeService_of_pending w rfl, resumeService_of_pending w rfl]
  exact ⟨rfl, rfl⟩

/-- Settles O47: GETC waits and goes on from the state itself, IN from the state with the prompt written. -/
theorem arrivalEndsTheWaitAsIfPending : Obligations.ArrivalEndsTheWaitAsIfPending := by
  intro s c i hi hkbq harrivals he _
  have hinput : s.inputToCome = [] := by rw [State.inputToCome, hkbq, harrivals]; rfl
  have hpending : { s with kbq := [c] } = { s with kbq := [c], arrivals := [] } := by rw [← harrivals]
  rw [hpending]
  rcases hi with rfl | rfl
  · obtain ⟨hwaiting, hstep⟩ := step_resumeService_typed .getc c hinput he
    exact ⟨_, _, _, rfl, by simp [serviceGetc, hwaiting], fun _ => rfl, hstep, rfl⟩
  · obtain ⟨hwaiting, hstep⟩ :=
      step_resumeService_typed .inp (s := { s with out := s.out ++ Config.inPrompt }) c hinput he
    exact ⟨_, _, _, rfl, by simp [serviceIn, hwaiting], fun _ => rfl, hstep, rfl⟩

/-! ### OUT and HALT (R165, R170) -/

/-- Settles O48: OUT is the append of one byte. -/
theorem outAppendsTheLowByteOfR0 : Obligations.OutAppendsTheLowByteOfR0 := fun s =>
  ⟨serviceOut s, lowByte (s.reg .r0), rfl, rfl, BitVec.extractLsb'_toNat .., outByte_reg s _, rfl, rfl, fun _ => rfl,
    ⟨rfl, rfl, rfl⟩, rfl, rfl⟩

/-- Settles O51: HALT is the writing of the engine state. -/
theorem haltChangesTheEngineStateOnly : Obligations.HaltChangesTheEngineStateOnly := fun s =>
  ⟨serviceHalt s, rfl, rfl, rfl, State.setEngine_reg s _, rfl, fun _ => rfl, ⟨rfl, rfl, rfl⟩, rfl, rfl⟩

/-! ### PUTS and PUTSP (R69, R166, R169) -/

/-- Reads of ordinary addresses, one after the other, give the cells and change nothing (R51). -/
theorem readsFrom_ordinary {n : Nat} {a : Word} {s : State}
    (h : ∀ k, k < n → isDevice (a + BitVec.ofNat 16 k) = false) :
    readsFrom n a s = ((List.range n).map fun k => s.cell (a + BitVec.ofNat 16 k), s) := by
  induction n generalizing a with
  | zero => rfl
  | succ n ih =>
    have hfirst : memRead a s = (s.cell a, s) := memRead_ordinary (by simpa using h 0 n.succ_pos) s
    have hrest := ih (a := a + 1#16) fun k hk => by
      rw [stringAddr_succ]
      exact h (k + 1) (Nat.succ_lt_succ hk)
    simp only [readsFrom, hfirst, hrest, stringAddr_succ, List.range_succ_eq_map, List.map_cons, List.map_map,
      BitVec.add_zero, Function.comp_def]

/-- PUTS on a string of words read through the memory port. -/
theorem exec_puts_of_reads {s u t : State} {n : Nat} {ws : List Word} (hreads : readsFrom n (s.reg .r0) s = (ws, u))
    (hws : ∀ w ∈ ws, w ≠ 0x0000#16) (hlast : memRead (s.reg .r0 + BitVec.ofNat 16 n) u = (0x0000#16, t)) :
    exec .puts s = .next { t with out := s.out ++ ws.map lowByte } := by
  obtain ⟨v, hv⟩ := putsLoop_bound (s.reg .r0) s
  have hout : v = { t with out := s.out ++ ws.map lowByte } := putsLoop_reads (o := s.out) hreads hws hlast hv
  exact stringOutcome_eq_next.mpr (hv.trans (congrArg some hout))

/-- PUTSP on a string of packed words read through the memory port. -/
theorem exec_putsp_of_reads {s u t : State} {n : Nat} {ws : List Word} {last : Word}
    (hreads : readsFrom n (s.reg .r0) s = (ws, u)) (hws : ∀ w ∈ ws, lowByte w ≠ 0x00#8 ∧ highByte w ≠ 0x00#8)
    (hlast : memRead (s.reg .r0 + BitVec.ofNat 16 n) u = (last, t))
    (hend : lowByte last = 0x00#8 ∨ highByte last = 0x00#8) :
    exec .putsp s = .next { t with out := s.out ++ (ws.flatMap fun w => [lowByte w, highByte w]) ++
      (if lowByte last = 0x00#8 then [] else [lowByte last]) } := by
  obtain ⟨v, hv⟩ := putspLoop_bound (s.reg .r0) s
  exact stringOutcome_eq_next.mpr (hv.trans (congrArg some (putspLoop_reads (o := s.out) hreads hws hlast hend hv)))

/-- PUTSP by its last word: one with a zero low byte writes nothing, one with only a zero high byte its low byte. -/
theorem exec_putsp_by_last {s u t : State} {n : Nat} {ws : List Word} {last : Word}
    (hreads : readsFrom n (s.reg .r0) s = (ws, u)) (hws : ∀ w ∈ ws, lowByte w ≠ 0x00#8 ∧ highByte w ≠ 0x00#8)
    (hlast : memRead (s.reg .r0 + BitVec.ofNat 16 n) u = (last, t)) :
    let written := s.out ++ ws.flatMap fun w => [lowByte w, highByte w]
    (lowByte last = 0x00#8 → exec .putsp s = .next { t with out := written }) ∧
    (lowByte last ≠ 0x00#8 → highByte last = 0x00#8 →
      exec .putsp s = .next { t with out := written ++ [lowByte last] }) := by
  refine ⟨fun hlow => ?_, fun hlow hhigh => ?_⟩
  · rw [exec_putsp_of_reads hreads hws hlast (.inl hlow), if_pos hlow, List.append_nil]
  · rw [exec_putsp_of_reads hreads hws hlast (.inr hhigh), if_neg hlow]

/-- Settles O49: the loop ends, having written what the words read determine; at ordinary addresses these are the cells. -/
theorem putsWritesTheLowBytesUpToAZeroWord : Obligations.PutsWritesTheLowBytesUpToAZeroWord := by
  refine ⟨fun s u t n ws => exec_puts_of_reads, fun s n hordinary hws hlast => ?_⟩
  have hwords : ∀ w ∈ (List.range n).map fun k => s.cell (s.reg .r0 + BitVec.ofNat 16 k), w ≠ 0x0000#16 :=
    List.forall_mem_map.mpr fun k hk => hws k (List.mem_range.mp hk)
  rw [exec_puts_of_reads (readsFrom_ordinary fun k hk => hordinary k hk.le) hwords
    ((memRead_ordinary (hordinary n le_rfl) s).trans (congrArg (·, s) hlast)), List.map_map]
  rfl

/-- Settles O50: as for PUTS, by the last word. -/
theorem putspWritesTwoBytesAWordUpToAZeroByte : Obligations.PutspWritesTwoBytesAWordUpToAZeroByte := by
  refine ⟨fun s u t n ws last => exec_putsp_by_last, fun s n hordinary hws => ?_⟩
  have hwords : ∀ w ∈ (List.range n).map fun k => s.cell (s.reg .r0 + BitVec.ofNat 16 k),
      lowByte w ≠ 0x00#8 ∧ highByte w ≠ 0x00#8 :=
    List.forall_mem_map.mpr fun k hk => hws k (List.mem_range.mp hk)
  have hputsp := exec_putsp_by_last (readsFrom_ordinary fun k hk => hordinary k hk.le) hwords
    (memRead_ordinary (hordinary n le_rfl) s)
  rwa [List.flatMap_map] at hputsp

end Sys2Proof.Machine

/-! ## RTI and RES (spec/46_reserved.md)

Both take the machine's one fault (R182), each with its own opcode; the fault writes the engine state alone (R190, R192). -/

namespace Sys2Proof.Machine

open Sys2Proof

theorem exec_rti (s : State) : exec .rti s = .next (raiseIllegalOpcode 8#4 s) := rfl

theorem exec_res (s : State) : exec .res s = .next (raiseIllegalOpcode 13#4 s) := rfl

/-- After the fetch, the instruction's own address is the one before PC (R21). -/
theorem State.instrAddr_of_pc {s : State} {a : Word} (h : s.pc = a + 1#16) : s.instrAddr = a := by
  rw [State.instrAddr, h, BitVec.add_sub_cancel]

theorem raiseIllegalOpcode_engine (op : BitVec 4) (s : State) :
    (raiseIllegalOpcode op s).engine = .faulted (.illegalOpcode s.instrAddr op) := rfl

/-- A Faulted state is not safe (R195). -/
theorem State.not_safe_of_faulted {s : State} {reason : FaultReason} (h : s.engine = .faulted reason) : ¬ s.safe :=
  fun hsafe => hsafe reason h

/-- The fault leaves its record in the engine state and keeps all other state (R190, R192). -/
theorem raiseIllegalOpcode_spec (op : BitVec 4) (s : State) :
    let t := raiseIllegalOpcode op s
    (∀ a, s.pc = a + 1#16 → t.engine = .faulted (.illegalOpcode a op)) ∧ ¬ t.safe ∧ t.pc = s.pc ∧ SameRegs s t ∧
      t.cond = s.cond ∧ SameMemory s t ∧ SameKeyboard s t ∧ t.waiting = s.waiting ∧ t.out = s.out := by
  have hengine := raiseIllegalOpcode_engine op s
  refine ⟨fun a ha => ?record, State.not_safe_of_faulted hengine, raiseIllegalOpcode_pc op s,
    reg_of_regs (raiseIllegalOpcode_regs op s), raiseIllegalOpcode_cond op s,
    cell_of_mem (raiseIllegalOpcode_mem op s), ⟨rfl, rfl, rfl⟩, raiseIllegalOpcode_waiting op s,
    raiseIllegalOpcode_out op s⟩
  case record => rw [hengine, State.instrAddr_of_pc ha]

/-- Settles O52: RTI and RES are the fault with the opcode 8 and 13. -/
theorem rtiAndResTakeTheFault : Obligations.RtiAndResTakeTheFault := by
  rintro i op s (⟨rfl, rfl⟩ | ⟨rfl, rfl⟩)
  · exact ⟨_, exec_rti s, raiseIllegalOpcode_spec 8#4 s⟩
  · exact ⟨_, exec_res s, raiseIllegalOpcode_spec 13#4 s⟩

end Sys2Proof.Machine

/-! ## The image loader (spec/70_reset_and_hazards.md R224 to R229)

A load is `storeWords`, one write through the memory port for each word, so that it differs from the state before it in
memory only. The words that it stores never wrap, because there are at most as many as addresses from the origin up. -/

namespace Sys2Proof.Machine

open Sys2Proof

/-! ### The words of an image (R224, R228) -/

theorem toNat_imageWord (first second : Byte) : (imageWord first second).toNat = first.toNat * 256 + second.toNat :=
  toNat_append_eq_add first second

theorem length_imageWords : ∀ body : List Byte, (imageWords body).length = body.length / 2
  | [] => rfl
  | [_] => by simp [imageWords]
  | first :: second :: rest => by
    simp only [imageWords, List.length_cons, length_imageWords rest]
    omega

/-- Word `k` is made of bytes `2k` and `2k + 1`, high byte first. -/
theorem getElem?_imageWords {body : List Byte} {k : Nat} (hk : k < body.length / 2) :
    (imageWords body)[k]? = some (imageWord (body[2 * k]?.getD 0#8) (body[2 * k + 1]?.getD 0#8)) := by
  induction k generalizing body with
  | zero =>
    match body, hk with
    | first :: second :: rest, _ => rfl
    | [_], hk | [], hk => simp at hk
  | succ k ih =>
    match body, hk with
    | first :: second :: rest, hk => exact ih (by simp only [List.length_cons] at hk; omega)
    | [_], hk | [], hk => simp at hk

/-- After whole words, what follows is read on its own. -/
theorem imageWords_append (extra : List Byte) :
    ∀ {body : List Byte}, body.length % 2 = 0 → imageWords (body ++ extra) = imageWords body ++ imageWords extra
  | [], _ => rfl
  | [_], heven => by simp at heven
  | first :: second :: rest, heven => by
    have hrest : rest.length % 2 = 0 := by simp only [List.length_cons] at heven; omega
    simp only [List.cons_append, imageWords, imageWords_append extra hrest]

/-! ### The words stored one after the other (R225, R226) -/

/-- A write can change memory only. -/
theorem memWrite_eq (a v : Word) (s : State) : memWrite a v s = { s with mem := (memWrite a v s).mem } := by
  unfold memWrite
  split <;> rfl

/-- Storing words can change memory only (R229). -/
theorem storeWords_eq (ws : List Word) (a : Word) (s : State) :
    storeWords ws a s = { s with mem := (storeWords ws a s).mem } := by
  induction ws generalizing a s with
  | nil => rfl
  | cons w ws ih =>
    rw [storeWords, ih, memWrite_eq a w s]

theorem storeWords_cell_device (ws : List Word) (a : Word) (s : State) {d : Word} (hd : isDevice d = true) :
    (storeWords ws a s).cell d = s.cell d := by
  induction ws generalizing a s with
  | nil => rfl
  | cons w ws ih => rw [storeWords, ih, memWrite_cell_device s a w hd]

/-- Without a wrap, the cells below the first address and after the last one stay. -/
theorem storeWords_cell_outside {ws : List Word} {a b : Word} (s : State) (hfits : a.toNat + ws.length ≤ 65536)
    (hb : b.toNat < a.toNat ∨ a.toNat + ws.length ≤ b.toNat) : (storeWords ws a s).cell b = s.cell b := by
  induction ws generalizing a s with
  | nil => rfl
  | cons w ws ih =>
    simp only [List.length_cons] at hfits hb
    have hne : b ≠ a := by rintro rfl; omega
    rw [storeWords, ih _ (by bv_omega) (by bv_omega), memWrite_cell_ne s hne]

/-- Without a wrap, word `k` stands at the `k`-th address, if that is an ordinary one. -/
theorem storeWords_cell_inside {ws : List Word} {a w : Word} {s : State} {k : Nat} (hwf : Memory.wf s.mem = true)
    (hfits : a.toNat + ws.length ≤ 65536) (hk : ws[k]? = some w) (hord : isDevice (a + BitVec.ofNat 16 k) = false) :
    (storeWords ws a s).cell (a + BitVec.ofNat 16 k) = w := by
  induction ws generalizing a s k with
  | nil => cases hk
  | cons v ws ih =>
    rw [List.length_cons] at hfits
    cases k with
    | zero =>
      obtain rfl : v = w := Option.some.inj hk
      rw [BitVec.add_zero] at hord ⊢
      rw [storeWords, storeWords_cell_outside _ (by bv_omega) (by bv_omega), memWrite_cell_same hwf hord]
    | succ k =>
      rw [← stringAddr_succ] at hord ⊢
      exact ih (memWrite_wf s hwf a v) (by bv_omega) hk hord

/-! ### The load (R225, R228, R229) -/

/-- The words that a load stores: as many as the body has, and not more than addresses from the origin up (R228). -/
def storedWords (origin : Word) (body : List Byte) : List Word := (imageWords body).take (65536 - origin.toNat)

theorem loadImage_cons_cons (b0 b1 : Byte) (body : List Byte) (s : State) :
    loadImage (some (b0 :: b1 :: body)) s =
      .loaded (storeWords (storedWords (imageWord b0 b1) body) (imageWord b0 b1) s) := rfl

theorem loadImage_of_length_lt_two {bytes : List Byte} (h : bytes.length < 2) (s : State) :
    loadImage (some bytes) s = .failed .truncated := by
  match bytes, h with
  | [], _ => rfl
  | [_], _ => rfl
  | _ :: _ :: _, h => simp at h

theorem length_storedWords (origin : Word) (body : List Byte) :
    (storedWords origin body).length = min (body.length / 2) (65536 - origin.toNat) := by
  rw [storedWords, List.length_take, length_imageWords, Nat.min_comm]

theorem storedWords_fit (origin : Word) (body : List Byte) :
    origin.toNat + (storedWords origin body).length ≤ 65536 := by
  rw [length_storedWords]
  omega

/-- A load that succeeds has stored words one after the other. -/
theorem exists_storeWords_of_loaded {source : Option (List Byte)} {s t : State} (h : loadImage source s = .loaded t) :
    ∃ ws a, t = storeWords ws a s := by
  match source, h with
  | some (b0 :: b1 :: body), h => exact ⟨_, _, (LoadResult.loaded.inj h).symm⟩

/-- Settles O54: the load stores `storedWords`, each word made of its two bytes of the body. -/
theorem loaderStoresTheImageFromItsOrigin : Obligations.LoaderStoresTheImageFromItsOrigin := by
  refine ⟨fun _ => rfl, fun _ s h => loadImage_of_length_lt_two h s, fun b0 b1 body s hwf => ?stored⟩
  case stored =>
    refine ⟨_, loadImage_cons_cons b0 b1 body s, ?_⟩
    rw [← toNat_imageWord]
    have hfits := storedWords_fit (imageWord b0 b1) body
    have hlength := length_storedWords (imageWord b0 b1) body
    refine ⟨fun k hk hord => ?inside, fun a ha => ?outside⟩
    case inside =>
      rw [BitVec.ofNat_add, BitVec.ofNat_toNat, BitVec.setWidth_eq] at hord ⊢
      have hword : (storedWords (imageWord b0 b1) body)[k]? =
          some (imageWord (body[2 * k]?.getD 0#8) (body[2 * k + 1]?.getD 0#8)) := by
        rw [storedWords, List.getElem?_take_of_lt (by omega), getElem?_imageWords (by omega)]
      rw [storeWords_cell_inside hwf hfits hword hord, toNat_imageWord]
    case outside =>
      rcases ha with hbelow | habove | hdevice
      · exact storeWords_cell_outside s hfits (.inl hbelow)
      · exact storeWords_cell_outside s hfits (.inr (hlength ▸ habove))
      · exact storeWords_cell_device _ _ s hdevice

/-- Settles O55: the load's outcome is by the number of bytes, and words stored change memory only. -/
theorem loaderTouchesMemoryOnly : Obligations.LoaderTouchesMemoryOnly := by
  refine ⟨fun _ => rfl, fun bytes s => ⟨fun h => ?short, fun h => loadImage_of_length_lt_two h s⟩, fun bytes s => ?opened,
    fun source s t h => ?frame, fun b0 b1 body => ⟨_, rfl, toNat_imageWord b0 b1⟩⟩
  case short =>
    match bytes, h with
    | [], _ | [_], _ => simp
  case opened =>
    match bytes with
    | [] | [_] | _ :: _ :: _ => exact nofun
  case frame =>
    obtain ⟨ws, a, rfl⟩ := exists_storeWords_of_loaded h
    rw [storeWords_eq]
    exact ⟨reg_of_regs rfl, rfl, rfl, ⟨rfl, rfl, rfl⟩, ⟨rfl, rfl⟩, rfl⟩

/-- Settles O56: an odd byte makes no word, and the words of a body that fills memory are the first ones of any longer
body. -/
theorem loaderIgnoresAnOddByteAndWordsPastTheEnd : Obligations.LoaderIgnoresAnOddByteAndWordsPastTheEnd := by
  refine ⟨fun b0 b1 b body s heven => ?odd, fun b0 b1 body extra s hfull => ?past⟩
  case odd =>
    have hwords : imageWords (body ++ [b]) = imageWords body := by
      rw [imageWords_append [b] heven]
      exact List.append_nil _
    rw [loadImage_cons_cons, loadImage_cons_cons, storedWords, hwords, storedWords]
  case past =>
    rw [← toNat_imageWord] at hfull
    have hlength : 65536 - (imageWord b0 b1).toNat ≤ (imageWords body).length := by
      rw [length_imageWords]
      omega
    rw [loadImage_cons_cons, loadImage_cons_cons, storedWords, imageWords_append extra (by omega),
      List.take_append_of_le_length hlength, storedWords]

end Sys2Proof.Machine

/-! ## The moves of the outside world (spec/60_exceptions.md R213)

Each move is a step, a load, or a write of one field; a load and a preset of a cell are writes through the memory port. -/

namespace Sys2Proof.Machine

open Sys2Proof

/-! ### The invariant after a write of each kind -/

theorem State.Inv.setReg {s : State} (h : s.Inv) (r : Reg) (v : Word) : (s.setReg r v).Inv := { h with }

/-- The characters pending and to come are in no clause. -/
theorem State.Inv.withInput {s : State} (h : s.Inv) (q : List Byte) (later : List (List Byte)) :
    { s with kbq := q, arrivals := later }.Inv := { h with }

/-- PC is in the clause about the fault record only, which is about no Ready state. -/
theorem State.Inv.setPc {s : State} (h : s.Inv) (he : s.engine = .ready) (v : Word) : (s.setPc v).Inv :=
  { h with fault := by simp [State.faultRecordRight, he] }

/-- A write keeps memory canonical and the cells under the device addresses clear. -/
theorem State.Inv.memWrite {s : State} (h : s.Inv) (a v : Word) : (memWrite a v s).Inv where
  memory := memWrite_wf s h.memory a v
  devices := h.devices.imp (memWrite_cell_device s a v rfl).trans (memWrite_cell_device s a v rfl).trans
  cond := by simpa [State.condLegal] using h.cond
  fault := by simpa [State.faultRecordRight] using h.fault
  ready := by simpa [State.readyFresh] using h.ready
  waits := by simpa [State.waitsRunning] using h.waits

theorem State.Inv.setCell {s : State} (h : s.Inv) {a : Word} (ha : isDevice a = false) (v : Word) :
    (s.setCell a v).Inv :=
  memWrite_ordinary ha v s ▸ h.memWrite a v

theorem State.Inv.storeWords {s : State} (h : s.Inv) (ws : List Word) (a : Word) : (storeWords ws a s).Inv := by
  induction ws generalizing a s with
  | nil => exact h
  | cons w ws ih => exact ih (h.memWrite a w) (a + 1#16)

/-- The one load keeps the invariant, whether it fails or not. -/
theorem State.Inv.withLoad {d : Driver.Session} (h : d.machine.Inv) (source : Option (List Byte)) :
    (d.withLoad (loadImage source d.machine)).machine.Inv := by
  cases hload : loadImage source d.machine with
  | loaded t =>
    obtain ⟨ws, a, rfl⟩ := exists_storeWords_of_loaded hload
    exact h.storeWords ws a
  | failed e => exact h

/-- Settles O60: the writes above, and O21 for a step. -/
theorem everyMoveKeepsTheInvariant : Obligations.EveryMoveKeepsTheInvariant := by
  refine ⟨resetMeetsTheInvariant, fun m d d' hd h => ?_⟩
  rcases Driver.apply_cases h with ⟨-, rfl⟩ | ⟨source, -, -, -, rfl⟩ | ⟨v, -, he, rfl⟩ | ⟨r, v, -, -, rfl⟩ |
    ⟨a, v, -, -, ha, rfl⟩ | ⟨c, -, rfl⟩ | ⟨later, -, rfl⟩ | ⟨t, -, -, hstep, rfl⟩
  · exact resetMeetsTheInvariant
  · exact hd.withLoad source
  · exact hd.setPc he v
  · exact hd.setReg r v
  · exact hd.setCell ha v
  · exact hd.withInput _ _
  · exact hd.withInput _ _
  · exact stepKeepsTheInvariant _ _ hd hstep

/-- What every move keeps holds after any moves. -/
theorem Driver.applyAll_induction {P : Driver.Session → Prop}
    (hmove : ∀ m d d', P d → Driver.apply m d = some d' → P d') {ms : List Driver.Move} {d d' : Driver.Session}
    (hd : P d) (h : Driver.applyAll ms d = some d') : P d' := by
  induction ms generalizing d with
  | nil => exact Option.some.inj h ▸ hd
  | cons m ms ih =>
    rw [Driver.applyAll] at h
    cases hm : Driver.apply m d with
    | none => simp [hm] at h
    | some e => exact ih (hmove m d e hd hm) (by simpa [hm] using h)

/-- Settles O22: the induction along the moves with O60 as its step. -/
theorem everyReachableStateMeetsTheInvariant : Obligations.EveryReachableStateMeetsTheInvariant := by
  obtain ⟨hstart, hmove⟩ := everyMoveKeepsTheInvariant
  exact fun _ _ => Driver.applyAll_induction (P := fun d => d.machine.Inv) hmove hstart

/-! ### The one load of an image (R211, R213) -/

theorem Driver.apply_load_of_not_allowed {source : Option (List Byte)} {d : Driver.Session}
    (h : d.machine.engine ≠ .ready ∨ d.image ≠ .notYet) : Driver.apply (.load source) d = none :=
  if_neg (not_and_or.mpr h)

theorem Driver.apply_load_of_ready (source : Option (List Byte)) {s : State} (h : s.engine = .ready) :
    Driver.apply (.load source) ⟨s, .notYet⟩ =
      some (Driver.Session.withLoad ⟨s, .notYet⟩ (loadImage source s)) :=
  if_pos ⟨h, rfl⟩

/-- Only a load and a reset change what became of the load. -/
theorem Driver.image_eq_of_apply {m : Driver.Move} {d d' : Driver.Session} (hreset : m ≠ .reset)
    (himage : d.image ≠ .notYet) (h : Driver.apply m d = some d') : d'.image = d.image := by
  rcases Driver.apply_cases h with ⟨hm, -⟩ | ⟨_, -, -, hd, -⟩ | ⟨_, -, -, rfl⟩ | ⟨_, _, -, -, rfl⟩ |
    ⟨_, _, -, -, -, rfl⟩ | ⟨_, -, rfl⟩ | ⟨_, -, rfl⟩ | ⟨_, -, -, -, rfl⟩
  · exact absurd hm hreset
  · exact absurd hd himage
  all_goals rfl

/-- Settles O59: the guard of a load, its effect, and the moves that leave what became of it. -/
theorem anImageIsLoadedOnceBeforeTheFirstStep : Obligations.AnImageIsLoadedOnceBeforeTheFirstStep := by
  refine ⟨fun _ _ => Driver.apply_load_of_not_allowed, fun source s he => ⟨fun t ht => ?_, fun e hfail => ?_⟩,
    fun _ _ => rfl, fun _ _ _ => Driver.image_eq_of_apply, fun _ => rfl⟩
  · rw [Driver.apply_load_of_ready source he, ht, Driver.Session.withLoad_loaded]
  · rw [Driver.apply_load_of_ready source he, hfail, Driver.Session.withLoad_failed]

/-! ### The boot (spec/70_reset_and_hazards.md R223, R230) -/

/-- By default the boot stores the image's words and sets PC to the origin. -/
theorem Driver.boot_cons_cons (b0 b1 : Byte) (body : List Byte) :
    Driver.boot (b0 :: b1 :: body) none =
      some ((storeWords (storedWords (imageWord b0 b1) body) (imageWord b0 b1) State.reset).setPc (imageWord b0 b1)) :=
  rfl

/-- The first word of a body is always stored, since every origin is an address. -/
theorem getElem?_zero_storedWords (origin : Word) (hi lo : Byte) (rest : List Byte) :
    (storedWords origin (hi :: lo :: rest))[0]? = some (imageWord hi lo) := by
  rw [storedWords, List.getElem?_take_of_lt (by omega)]
  rfl

/-- Settles O57: the first word stands at the origin, where PC is, and the rest of the reset state is as it was. -/
theorem bootedImageIsFetchedFromItsOrigin : Obligations.BootedImageIsFetchedFromItsOrigin := by
  intro b0 b1 hi lo rest hord
  refine ⟨_, Driver.boot_cons_cons b0 b1 (hi :: lo :: rest), rfl, ?fetched, ?ready, ?cond, ?regs, ?inv⟩
  case fetched =>
    have hcell := storeWords_cell_inside State.reset_wf (storedWords_fit (imageWord b0 b1) (hi :: lo :: rest))
      (getElem?_zero_storedWords _ hi lo rest) (by rwa [BitVec.add_zero])
    rw [BitVec.add_zero] at hcell
    exact (fetch_setPc_ordinary hord _).trans hcell
  case inv => exact (State.Inv.storeWords resetMeetsTheInvariant _ _).setPc (by rw [storeWords_eq]; rfl) _
  case regs => exact reg_of_regs (by rw [storeWords_eq]; rfl)
  case ready | cond => rw [storeWords_eq]; rfl

end Sys2Proof.Machine

/-! ## How a run goes on and ends (spec/60_exceptions.md R190, R195, R198, R202)

An instruction leaves the engine as it is, but for HALT, RTI and RES; a terminal state is a fixed point of the step, of any
number of steps and of the driver's loop. -/

namespace Sys2Proof.Machine

open Sys2Proof

/-! ### A next state from every state (R191) -/

theorem exec_puts_next (s : State) : ∃ t, exec .puts s = .next t := by
  obtain ⟨t, ht⟩ := putsLoop_bound (s.reg .r0) s
  exact ⟨t, stringOutcome_eq_next.mpr ht⟩

theorem exec_putsp_next (s : State) : ∃ t, exec .putsp s = .next t := by
  obtain ⟨t, ht⟩ := putspLoop_bound (s.reg .r0) s
  exact ⟨t, stringOutcome_eq_next.mpr ht⟩

theorem exec_next_of_wf {i : Instr} (hi : i.wf = true) (s : State) : ∃ t, exec i s = .next t := by
  cases i with
  | br nzp off => exact ⟨_, exec_br nzp off s⟩
  | trap v => exact ⟨_, exec_trap_of_wf hi s⟩
  | puts => exact exec_puts_next s
  | putsp => exact exec_putsp_next s
  | _ => exact ⟨_, rfl⟩

/-- A TRAP with a listed vector answers what its service does. -/
theorem exec_next (i : Instr) (s : State) : ∃ t, exec i s = .next t := by
  obtain ⟨hwf, hexec, -⟩ := canon_spec i
  exact hexec s ▸ exec_next_of_wf hwf s

theorem step_next (s : State) : ∃ t, step s = .next t := by
  cases he : s.engine.isTerminal with
  | true => exact ⟨s, step_terminal he⟩
  | false =>
    cases hw : s.waiting with
    | some w => exact ⟨_, step_waiting he hw⟩
    | none => exact step_fetching he hw ▸ exec_next _ _

/-- Settles O17: strings end, and every other case of `exec` and of `step` writes its next state. -/
theorem everyInstructionAnswersANextState : Obligations.EveryInstructionAnswersANextState := ⟨exec_next, step_next⟩

/-! ### Several steps and the driver's loop (R202) -/

theorem run_succ {s t : State} (h : step s = .next t) (n : Nat) :
    Host.Core.run Sys2Proof.core (n + 1) s = Host.Core.run Sys2Proof.core n t := by
  have hcore : Sys2Proof.core.step s = .next t := h
  simp only [Host.Core.run, hcore]

theorem run_terminal {s : State} (h : s.engine.isTerminal = true) (n : Nat) :
    Host.Core.run Sys2Proof.core n s = .next s := by
  induction n with
  | zero => rfl
  | succ n ih => rw [run_succ (step_terminal h), ih]

theorem Driver.drive_terminal {s : State} (h : s.engine.isTerminal = true) (runs : List Bool) :
    Driver.drive runs s = .next s := by
  cases runs with
  | nil => rfl
  | cons run later => rw [Driver.drive, if_pos h]

theorem Driver.drive_stopped {s : State} (h : s.betweenSteps = true) (later : List Bool) :
    Driver.drive (false :: later) s = .next s := by
  simp [Driver.drive, h]

theorem Driver.drive_true {s t : State} (he : s.engine.isTerminal = false) (h : step s = .next t) (later : List Bool) :
    Driver.drive (true :: later) s = Driver.drive later t := by
  simp [Driver.drive, he, h]

/-- While `run` is true, the loop goes on from where it was. -/
theorem Driver.drive_replicate_add (m n : Nat) {s t : State} (h : Driver.drive (List.replicate m true) s = .next t) :
    Driver.drive (List.replicate (m + n) true) s = Driver.drive (List.replicate n true) t := by
  induction m generalizing s with
  | zero =>
    obtain rfl : s = t := Host.Outcome.next.inj h
    rw [Nat.zero_add]
  | succ m ih =>
    rw [Nat.add_right_comm, List.replicate_succ]
    cases he : s.engine.isTerminal with
    | true =>
      rw [drive_terminal he] at h
      obtain rfl : s = t := Host.Outcome.next.inj h
      rw [drive_terminal he, drive_terminal he]
    | false =>
      obtain ⟨u, hu⟩ := step_next s
      rw [List.replicate_succ, drive_true he hu] at h
      rw [drive_true he hu, ih h]

/-- Settles O58: the loop with `run` false, with `run` true for some samples and then for more, and in a terminal state. -/
theorem stoppingLosesNothing : Obligations.StoppingLosesNothing :=
  ⟨fun _ later h => Driver.drive_stopped h later, fun m n _ _ => Driver.drive_replicate_add m n,
    fun _ runs h => Driver.drive_terminal h runs⟩

/-! ### The engine after an instruction (R27) -/

/-- Every instruction leaves the engine as it is, but for HALT and the two that take the fault. -/
theorem exec_engine_cases {i : Instr} {s t : State} (hi : i.wf = true) (h : exec i s = .next t) :
    t.engine = s.engine ∨ (i = .halt ∧ t.engine = .halted) ∨
    ((i = .rti ∨ i = .res) ∧ ∃ reason, t.engine = .faulted reason) := by
  cases i with
  | halt => cases h; exact .inr (.inl ⟨rfl, rfl⟩)
  | rti => cases h; exact .inr (.inr ⟨.inl rfl, _, rfl⟩)
  | res => cases h; exact .inr (.inr ⟨.inr rfl, _, rfl⟩)
  | br nzp off => cases (exec_br nzp off s).symm.trans h; exact .inl rfl
  | trap v => cases (exec_trap_of_wf hi s).symm.trans h; exact .inl rfl
  | ld dr off | ldr dr base off => cases h; exact .inl (memRead_engine _ s)
  | ldi dr off => cases h; exact .inl ((memRead_engine _ _).trans (memRead_engine _ s))
  | st sr off | str sr base off => cases h; exact .inl (memWrite_engine _ _ s)
  | sti sr off => cases h; exact .inl ((memWrite_engine _ _ _).trans (memRead_engine _ s))
  | getc | inp => cases h; exact .inl (resumeService_engine _ _)
  | puts => exact .inl (servicePuts_same h).engine
  | putsp => exact .inl (servicePutsp_same h).engine
  | _ => cases h; exact .inl rfl

/-! ### Faulted (R190, R192, R195) -/

theorem extractLsb'_eq_opcodeValue (w : Word) : w.extractLsb' 12 4 = opcodeValue (decode w).opcode := by
  obtain ⟨-, hopcode, -⟩ := everyWordDecodesByItsOpcodeField w
  rw [hopcode, opcodeValue_opcodeMap]

/-- The fault after a fetch records the address fetched from and the word's opcode field. -/
theorem step_reserved {s : State} (he : s.engine.isTerminal = false) (hw : s.waiting = none)
    (hi : decode (fetch s).1 = .rti ∨ decode (fetch s).1 = .res) :
    step s = .next { (fetch s).2 with
      engine := .faulted (.illegalOpcode s.pc ((fetch s).1.extractLsb' 12 4)) } := by
  have haddr : (fetch s).2.instrAddr = s.pc := State.instrAddr_of_pc (fetch_pc s)
  rw [step_fetching he hw, extractLsb'_eq_opcodeValue]
  rcases hi with hi | hi <;> rw [hi, ← haddr] <;> rfl

/-- Settles O13: RTI and RES take the fault, and no other instruction does. -/
theorem onlyReservedOpcodesFault : Obligations.OnlyReservedOpcodesFault := by
  refine fun s he hw => ⟨⟨?faulted, fun hi => ⟨_, _, step_reserved he hw hi, rfl⟩⟩, step_reserved he hw⟩
  rintro ⟨t, reason, h, hfault⟩
  rw [step_fetching he hw] at h
  rcases exec_engine_cases (decode_wf _) h with hrun | ⟨-, hhalt⟩ | ⟨hi, -⟩
  · cases hfault.symm.trans (hrun.trans (fetch_engine s))
  · cases hfault.symm.trans hhalt
  · exact hi

/-- No move but a reset leaves a terminal state: a step does nothing there, and a load and a new PC need a Ready state. -/
theorem Driver.apply_engine_of_terminal {m : Driver.Move} {d d' : Driver.Session} (hreset : m ≠ .reset)
    (he : d.machine.engine.isTerminal = true) (h : Driver.apply m d = some d') :
    d'.machine.engine = d.machine.engine := by
  have hready : d.machine.engine ≠ .ready := by intro hr; rw [hr] at he; cases he
  rcases Driver.apply_cases h with ⟨hm, -⟩ | ⟨_, -, hr, -⟩ | ⟨_, -, hr, -⟩ | ⟨_, _, -, -, rfl⟩ |
    ⟨_, _, -, -, -, rfl⟩ | ⟨_, -, rfl⟩ | ⟨_, -, rfl⟩ | ⟨t, -, -, hstep, rfl⟩
  · exact absurd hm hreset
  · exact absurd hr hready
  · exact absurd hr hready
  · rfl
  · rfl
  · rfl
  · rfl
  · exact congrArg State.engine (Host.Outcome.next.inj ((step_terminal he).symm.trans hstep)).symm

/-- Settles O15: Faulted is terminal, and its record is the run's result. -/
theorem faultedIsReportedStickyAndFinal : Obligations.FaultedIsReportedStickyAndFinal := by
  intro s reason h
  have he : s.engine.isTerminal = true := by rw [h]; rfl
  refine ⟨State.not_safe_of_faulted h, by rw [State.result, h], Driver.drive_terminal he,
    fun n => ⟨s, run_terminal he n, h⟩, fun image => ⟨fun m d hreset hm => ?_, rfl⟩⟩
  exact (Driver.apply_engine_of_terminal hreset he hm).trans h

/-! ### Halted (R198) -/

/-- Settles O16: HALT sets the engine, Halted is terminal, and only a fetched HALT gets there. -/
theorem haltedIsReachedByHaltOnlyAndIsFinal : Obligations.HaltedIsReachedByHaltOnlyAndIsFinal := by
  refine ⟨fun s => ⟨_, rfl, rfl, rfl⟩, fun s n h => run_terminal (by rw [h]; rfl) n, fun s t hs h ht => ?_⟩
  rcases step_cases h with ⟨-, rfl⟩ | ⟨w, -, -, rfl⟩ | ⟨-, hw, hexec⟩
  · exact absurd ht hs
  · exact absurd ((resumeService_engine w s).symm.trans ht) hs
  · rcases exec_engine_cases (decode_wf _) hexec with hrun | ⟨hhalt, -⟩ | ⟨-, reason, hfault⟩
    · cases ht.symm.trans (hrun.trans (fetch_engine s))
    · exact ⟨hw, hhalt⟩
    · cases ht.symm.trans hfault

end Sys2Proof.Machine

/-! ## Empty memory (spec/70_reset_and_hazards.md R221)

Without input every word fetched is an ordinary cell's 0x0000, the idle status 0x0000, or the last character at the data
register; each has no bit above the low byte, so that it is a BR with an empty mask. -/

namespace Sys2Proof.Machine

open Sys2Proof

/-- Without input a read of a cell that holds 0x0000 answers a zero-extended byte, also at a device address (R52, R54). -/
theorem memRead_no_input {a : Word} {s : State} (hcell : s.cell a = 0x0000#16) (hq : s.kbq = [])
    (hlater : s.arrivals = []) :
    ∃ c : Byte, memRead a s = (zext c, s) := by
  have hpoll : pollInput s = s := by rw [pollInput, hlater]
  have hidle : (pollInput s).kbq = [] := by rw [hpoll, hq]
  by_cases hkbsr : a = kbsrAddr
  · exact ⟨0x00#8, by rw [hkbsr, memRead_kbsr_idle hidle, hpoll]; rfl⟩
  · by_cases hkbdr : a = kbdrAddr
    · exact ⟨s.kbChar, by rw [hkbdr, memRead_kbdr_idle hidle, hpoll]⟩
    · exact ⟨0x00#8, by rw [memRead_ordinary (isDevice_eq_false hkbsr hkbdr), hcell]; rfl⟩

/-- A character as an instruction has no effect: it is a BR whose mask, above the low byte, is empty (D1). -/
theorem exec_decode_zext (c : Byte) (s : State) : exec (decode (zext c)) s = .next s := by
  have hop : (decodeFields (zext c)).opcode = 0x0#4 := extractLsb'_zext_of_le c (by decide) 4
  have hmask : (decodeFields (zext c)).dr = 0#3 := extractLsb'_zext_of_le c (by decide) 3
  have hbr : decode (zext c) = .br 0#3 (decodeFields (zext c)).pcoffset9 := by
    rw [decode, selectInstr, hop, hmask]
    rfl
  have hnot : branchTaken 0#3 s = false := by simp [branchTaken]
  rw [hbr, exec_br, hnot]
  rfl

theorem step_empty_memory {s : State} (he : s.engine.isTerminal = false) (hw : s.waiting = none)
    (hcell : s.cell s.pc = 0x0000#16) (hq : s.kbq = []) (hlater : s.arrivals = []) :
    step s = .next { s with pc := s.pc + 1#16, engine := .running } := by
  obtain ⟨c, hread⟩ := memRead_no_input (a := s.pc) (s := s.setEngine .running) hcell hq hlater
  rw [step_fetching he hw, fetch, hread]
  exact exec_decode_zext c _

/-- Settles O19: by induction on the steps; after the first one the engine is Running and memory and input are as before. -/
theorem emptyMemoryIsWalkedThrough : Obligations.EmptyMemoryIsWalkedThrough := by
  intro s n he hw hcell hq hlater
  induction n generalizing s with
  | zero => rw [run_succ (step_empty_memory he hw (hcell s.pc) hq hlater)]; rfl
  | succ n ih =>
    have hrest := ih { s with pc := s.pc + 1#16, engine := .running } rfl hw hcell hq hlater
    rw [run_succ (step_empty_memory he hw (hcell s.pc) hq hlater)]
    simpa only [stringAddr_succ] using hrest

end Sys2Proof.Machine
